-- ==== Sys2Proof/Word.lean ====
section
/-!
DEFINITION. The values of the block (R11, R12, R23): every quantity is an unsigned integer of a stated
width. The width N of the working registers is a parameter of the hardware without an upper limit (R7, D22),
so a register is held as the natural number it stores and every write to one goes through `wrap`, which is
the spec's "reduced mod 2^N". That the stored number stays below 2^N is part of the invariant of Safety.lean.
-/

namespace Sys2Proof

/-- A byte is 8 bits (R11, D19). -/
abbrev Byte := BitVec 8

/-- What a write of the exact integer `v` to an `N`-bit register stores: `v mod 2^N` (R12, R23). -/
def wrap (N v : Nat) : Nat := v % 2 ^ N

/-- `neg_N(a) = (2^N - a) mod 2^N`, the N-bit two's complement negation (R12). -/
def neg (N a : Nat) : Nat := (2 ^ N - wrap N a) % 2 ^ N

/-- `(a - b) mod 2^N`, the one subtraction of the block (R121). -/
def subWrap (N a b : Nat) : Nat := wrap N (a + neg N b)

/-- `v[hi:lo] = (v >> lo) mod 2^(hi - lo + 1)` (R11). -/
def slice (v hi lo : Nat) : Nat := (v >>> lo) % 2 ^ (hi - lo + 1)

end Sys2Proof
end

