-- ==== Sys2Proof/Config.lean ====
section
/-!
DEFINITION. The configuration of the block (R7 to R10, R30): three read-only fields fixed at construction,
RANGE_SIZE (N), PRECISION (P) and BYTE_ORDER, the open bound NSYM_MAX, and the constants derived from them.
The type carries the spec's constraints (93_implementation_defined.md U14): a pair (N, P) that breaks one is no
configuration of this hardware, so no state of such a machine exists.
-/

namespace Sys2Proof

/-- BYTE_ORDER: the order of the bytes of ONE chunk in the stream (R7, R59). -/
inductive ByteOrder where
  | big
  | little
  deriving DecidableEq, Repr

/-- The constraints on N, P and NSYM_MAX: P is a whole number of bytes and at least 8, P divides N, N > 2P
(R8, D6), and NSYM_MAX, where there is a bound, is at least 1 (R10, D8). -/
def Config.legal (N P : Nat) (nsymMax : Option Nat) : Bool :=
  P % 8 == 0 && decide (8 ≤ P) && N % P == 0 && decide (2 * P < N) && nsymMax.all (fun m => decide (1 ≤ m))

/-- One configuration of the block. -/
structure Config where
  /-- RANGE_SIZE, the width in bits of `low`, `range` and `code` (R7). -/
  N : Nat
  /-- PRECISION, the width in bits of one chunk (R7). -/
  P : Nat
  /-- BYTE_ORDER (R7). -/
  order : ByteOrder
  /-- NSYM_MAX, the largest table length accepted (R10, D8); `none` is no bound. The spec leaves it OPEN. -/
  nsymMax : Option Nat
  /-- The constraints hold (R8, U14). -/
  ok : Config.legal N P nsymMax = true
  deriving DecidableEq, Repr

namespace Config

/-- The default configuration, N = 64, P = 8, BYTE_ORDER = big (R7).
DESIGN CHOICE, unsafe: NSYM_MAX is OPEN in the spec and is taken as unbounded here, as D8 allows (log 2). A claim about
every configuration does not rest on it. -/
def default : Config := ⟨64, 8, .big, none, by decide⟩

/-- TOP = 2^(N - P) (R9). -/
def top (c : Config) : Nat := 2 ^ (c.N - c.P)

/-- BOTTOM = 2^(N - 2*P) (R9), also the largest scale (R10, D7). -/
def bottom (c : Config) : Nat := 2 ^ (c.N - 2 * c.P)

/-- MASK = 2^N - 1, the all-ones N-bit value (R9). -/
def mask (c : Config) : Nat := 2 ^ c.N - 1

/-- CMASK = 2^P - 1, the all-ones chunk value (R9). -/
def cmask (c : Config) : Nat := 2 ^ c.P - 1

/-- CB = P / 8, the bytes of one chunk (R9). -/
def cb (c : Config) : Nat := c.P / 8

/-- NCHUNK = N / P, the chunks of one register (R9). -/
def nchunk (c : Config) : Nat := c.N / c.P

/-- The lengths the block accepts, `1 <= n <= NSYM_MAX` (R10, R91). -/
def admits (c : Config) (n : Nat) : Bool := decide (1 ≤ n) && c.nsymMax.all (fun m => decide (n ≤ m))

end Config
end Sys2Proof
end

