-- ==== Sys2Proof/Syntax.lean ====
section
/-!
DEFINITION. The six commands (R88), their operands (R87) and the command port on which the host presents one
(R86, R87): an 8-bit command word CW, and beside it the operand ports.
-/

namespace Sys2Proof

/-- The frequency table of one command (R51): the explicit length `n` and the two arrays, indexed from 0. -/
structure Table where
  /-- `n`, the table length, a natural number (R87, D8). -/
  n : Nat
  /-- `count[0..n-1]`, the weights (R51). -/
  count : List Nat
  /-- `count_cum[0..n-1]`, their inclusive running sums (R51). -/
  countCum : List Nat
  deriving DecidableEq, Repr

/-- The commands of the block, one constructor per row of the command map (R88). -/
inductive Instr where
  /-- ENC_START, CW 0x00 (R131). -/
  | encStart
  /-- ENCODE, CW 0x01 (R132): a table and the zero-based index of the symbol to code. -/
  | encode (t : Table) (index : Nat)
  /-- ENC_FINISH, CW 0x02 (R134). -/
  | encFinish
  /-- DEC_START, CW 0x04 (R151). -/
  | decStart
  /-- DECODE, CW 0x05 (R153): a table; the result, an index, goes to the results of DEC. -/
  | decode (t : Table)
  /-- DEC_FINISH, CW 0x06 (R156). -/
  | decFinish
  deriving DecidableEq, Repr

/-- The operand ports (R87): the length, the two arrays and the index. A command that takes no operand, or not
this one, ignores the port. -/
structure Ports where
  n : Nat
  count : List Nat
  countCum : List Nat
  index : Nat
  deriving DecidableEq, Repr

/-- Ports that carry nothing: length 0, empty arrays, index 0. -/
def Ports.idle : Ports := ⟨0, [], [], 0⟩

/-- The table on the ports. -/
def Ports.table (p : Ports) : Table := ⟨p.n, p.count, p.countCum⟩

/-- Ports that carry a table and an index. -/
def Ports.carrying (t : Table) (index : Nat) : Ports := ⟨t.n, t.count, t.countCum, index⟩

/-- A command as the host presents it: CW with its operands beside it (R86, R87). -/
structure Presented where
  cw : BitVec 8
  ports : Ports
  deriving DecidableEq, Repr

end Sys2Proof
end

