-- ==== Sys2Proof/WellFormed.lean ====
section
/-!
DEFINITION. Which commands can be presented at all (R51, R87): an array of a table has exactly `n` elements,
and an element is an N-bit unsigned value. This is the shape of the operands, NOT their legality: a presentable
table may still be malformed (`tableWF`, R58) or its length out of range, and the command is then refused by its
meaning.
-/

namespace Sys2Proof

/-- An array of `n` elements of N bits each (R51). -/
def arrayWF (c : Config) (n : Nat) (a : List Nat) : Bool :=
  a.length == n && a.all (fun v => decide (v < 2 ^ c.N))

/-- Both arrays of a table have its length and hold N-bit elements (R51). -/
def Table.wf (c : Config) (t : Table) : Bool := arrayWF c t.n t.count && arrayWF c t.n t.countCum

/-- The command can be presented to a block of configuration `c`. -/
def Instr.wf (c : Config) : Instr → Bool
  | .encStart => true
  | .encode t _ => t.wf c
  | .encFinish => true
  | .decStart => true
  | .decode t => t.wf c
  | .decFinish => true

end Sys2Proof
end

