-- ==== Sys2Proof/Decode.lean ====
section
/-!
DEFINITION. Reading the command word (R86, R88, R90) and, after it, the encoder written from the same map.
CW[7:3] is `rsv` and must be 0, CW[2] is `unit` (0 ENC, 1 DEC), CW[1:0] is `fn` (0 START, 1 CODE, 2 FINISH,
3 reserved).
-/

namespace Sys2Proof

/-- The two units, as CW[2] names them (R86). -/
inductive UnitName where
  | enc
  | dec
  deriving DecidableEq, Repr

/-- Why a command word is reserved (R90). -/
inductive DecodeError where
  /-- CW[7:3] is not 0: the words 0x08 to 0xFF. -/
  | reservedBits
  /-- CW[1:0] is 3: the words 0x03 and 0x07. -/
  | reservedFunction
  deriving DecidableEq, Repr

/-- CW[7:3] (R86). -/
def cwRsv (cw : BitVec 8) : BitVec 5 := cw.extractLsb' 3 5

/-- CW[2] (R86). -/
def cwUnit (cw : BitVec 8) : UnitName := if cw.getLsbD 2 then .dec else .enc

/-- CW[1:0] (R86). -/
def cwFn (cw : BitVec 8) : BitVec 2 := cw.extractLsb' 0 2

/-- The command of ENC with function `fn` (R88). -/
def decodeEnc (fn : BitVec 2) (ports : Ports) : Except DecodeError Instr :=
  if fn = 0#2 then .ok .encStart
  else if fn = 1#2 then .ok (.encode ports.table ports.index)
  else if fn = 2#2 then .ok .encFinish
  else .error .reservedFunction

/-- The command of DEC with function `fn` (R88). -/
def decodeDec (fn : BitVec 2) (ports : Ports) : Except DecodeError Instr :=
  if fn = 0#2 then .ok .decStart
  else if fn = 1#2 then .ok (.decode ports.table)
  else if fn = 2#2 then .ok .decFinish
  else .error .reservedFunction

/-- The command a presented word and its ports stand for (R88); a reserved word stands for none (R90). -/
def decode (p : Presented) : Except DecodeError Instr :=
  if cwRsv p.cw = 0#5 then
    match cwUnit p.cw with
    | .enc => decodeEnc (cwFn p.cw) p.ports
    | .dec => decodeDec (cwFn p.cw) p.ports
  else .error .reservedBits

/-- The command word with `rsv = 0` and the given `unit` and `fn` bits (R86). -/
def packCw (unit : BitVec 1) (fn : BitVec 2) : BitVec 8 := 0#5 ++ unit ++ fn

/-- How the host presents a command (R86 to R88): its word, and its operands on the ports. -/
def encode : Instr → Presented
  | .encStart => ⟨packCw 0#1 0#2, Ports.idle⟩
  | .encode t index => ⟨packCw 0#1 1#2, Ports.carrying t index⟩
  | .encFinish => ⟨packCw 0#1 2#2, Ports.idle⟩
  | .decStart => ⟨packCw 1#1 0#2, Ports.idle⟩
  | .decode t => ⟨packCw 1#1 1#2, Ports.carrying t 0⟩
  | .decFinish => ⟨packCw 1#1 2#2, Ports.idle⟩

/-- The command of an opcode-table word: one byte, presented with idle ports (the table gives the operands no
bits; they are zero). All commands have the one length of 8 bits (R86), so another length is no command. -/
def decodeTableWord (nbits w : Nat) : Option Instr :=
  if nbits = 8 ∧ w < 2 ^ 8 then
    match decode ⟨BitVec.ofNat 8 w, Ports.idle⟩ with
    | .ok i => some i
    | .error _ => none
  else none

end Sys2Proof
end

