-- ==== Sys2Proof/Machine/State.lean ====
section
/-!
DEFINITION. The state of the block and what surrounds it (10_state.md, 20_memory.md): the configuration, the two
units with their Range States, the output sink, the input source, the indices DEC returned and the moves the host has
lined up. Then the reasons a step can stop, and the state right after RESET (R36 to R42, R211).
-/

namespace Sys2Proof.Machine

/-- Who raises a fault: the model, for a datapath that has no next state. The hardware raises nothing (R180). Both
faults are SAFE (the machine stops) and neither can arise in a state of the invariant `Inv` (Safety.lean). -/
inductive Fault where
  /-- RENORM's loops never end (R119, R196): the condition of a loop still holds after NCHUNK iterations, when
  every bit of `low` and of `range` has been shifted out, so it holds for ever. Raised by `renorm` for ENCODE and
  DECODE. Safe: the hardware hangs here. -/
  | renormNeverEnds
  /-- `range` is 0 where DECODE divides by it (R123: "a divisor of 0 has no result"). Raised by `targetOf` for
  DECODE. Safe: the spec gives no result. -/
  | divisorZero
  deriving DecidableEq, Repr

/-- Why a command is refused: the five reasons of R183, a closed list, each SAFE (the source calls the behaviour
undefined and the spec gives it no next state, R184); then two of the model's own. -/
inductive Refusal where
  /-- A reserved command word (R90). Raised by `step`. Safe. -/
  | reservedCommand
  /-- A command in a phase for which R28 lists no transition. Raised by every command. Safe. -/
  | badPhase
  /-- `n == 0`, `n > NSYM_MAX`, or a table that is not well-formed (R58, R91). Raised by ENCODE and DECODE. Safe. -/
  | badTable
  /-- `index >= n` (R91), or a table read outside `0..n-1` (R52). Raised by ENCODE. Safe. -/
  | badIndex
  /-- A CONSUME that needs bytes beyond the end of the input source (R54). Raised by DEC_START and DECODE. Safe. -/
  | streamUnderrun
  /-- A host act, no command, that the spec does not give the host in this state: LINK without a finalized encoder
  session (R55), or a new input source between DEC_START and DEC_FINISH (R33, R218). Raised by `step`. Safe. -/
  | noSuchHostMove
  /-- An instruction that has no meaning yet. No arm of `exec` raises it. Safe. -/
  | notModelled (mnemonic : String)
  deriving DecidableEq, Repr

/-- The sequencing state of one unit (R27); an enumeration, since the source gives it no width and no code. -/
inductive Phase where
  | created
  | primed
  | coding
  | finalized
  deriving DecidableEq, Repr, Inhabited

/-- The Range State of one unit, two N-bit registers (R20 to R22). -/
structure RangeState where
  /-- The lower end of the interval `[low, low + range)` (R21). -/
  low : Nat
  /-- The width of the interval (R22). -/
  range : Nat
  deriving DecidableEq, Repr, Inhabited

/-- The two registers of DEC that taking a chunk in changes (R24, R32). -/
structure Window where
  /-- The N most recently consumed bits of the input (R24). -/
  code : Nat
  /-- The byte offset in the input of the next byte to be read (R32). -/
  rpos : Nat
  deriving DecidableEq, Repr, Inhabited

/-- The encoder unit (R20). -/
structure Enc extends RangeState where
  /-- R27, R28. -/
  phase : Phase
  /-- The refusal mark (R184), with the reason of the first refusal; `none` is no mark. -/
  mark : Option Refusal
  deriving DecidableEq, Repr, Inhabited

/-- The decoder unit (R20). -/
structure Dec extends RangeState, Window where
  /-- R27, R28. -/
  phase : Phase
  /-- The refusal mark (R184), with the reason of the first refusal; `none` is no mark. -/
  mark : Option Refusal
  deriving DecidableEq, Repr, Inhabited

/-- What the host does to the block: it presents a command (R86, R87), applies RESET to the block or to one unit
(R210, D18), and carries streams (R33, R55). -/
inductive HostMove where
  /-- A command word with its operands (R86, R87). -/
  | command (p : Presented)
  /-- RESET of the whole block, an event and not a command word (R210). -/
  | reset
  /-- RESET restricted to ENC (R210, D18). -/
  | resetEnc
  /-- RESET restricted to DEC (R210, D18). -/
  | resetDec
  /-- LINK: the input source becomes the complete output of a finalized encoder session (R55, D24). -/
  | link
  /-- The host binds an input source of its own to DEC (R33, R215). -/
  | bind (bytes : List Byte)
  deriving DecidableEq, Repr

end Sys2Proof.Machine

namespace Sys2Proof.Machine

/-- The machine: everything the spec gives the block (R20 to R42) and the host's side of it. -/
structure State where
  /-- RANGE_SIZE, PRECISION, BYTE_ORDER and NSYM_MAX: read-only, unchanged even by RESET (R30, R42). -/
  cfg : Config
  /-- The encoder unit. -/
  enc : Enc
  /-- `out`, the bytes the output sink has received, in order (R33). -/
  out : List Byte
  /-- The decoder unit. -/
  dec : Dec
  /-- `inp`, the bytes of the input source (R33). -/
  inp : List Byte
  /-- The indices the DECODE commands since RESET returned, in order: DEC's observable result (R87, R225). -/
  results : List Nat
  /-- The host's moves still to come, the next one first: the commands it presents one at a time (R27). -/
  pending : List HostMove
  deriving DecidableEq, Repr

/-- ENC right after RESET in configuration `c` (R36, R37, R39). -/
def Enc.fresh (c : Config) : Enc := { low := 0, range := c.mask, phase := .created, mark := none }

/-- DEC right after RESET in configuration `c` (R36 to R40). -/
def Dec.fresh (c : Config) : Dec :=
  { low := 0, range := c.mask, code := 0, rpos := 0, phase := .created, mark := none }

/-- The block of configuration `c` right after RESET (R211), with the input source the host has bound and the moves
it has lined up, neither of which RESET changes (R41). -/
def State.fresh (c : Config) (inp : List Byte) (pending : List HostMove) : State :=
  { cfg := c, enc := Enc.fresh c, out := [], dec := Dec.fresh c, inp := inp, results := [], pending := pending }

/-- The default configuration right after RESET (R7, R211), with no input bound yet and no move lined up
(DESIGN CHOICE, log 3). -/
def State.reset : State := State.fresh Config.default [] []

end Sys2Proof.Machine
end

