-- ==== Sys2Proof/Machine/Operands.lean ====
section
/-!
DEFINITION. The operand forms (20_memory.md, 30_encoding.md): reading the table space (R52) and the values a command
derives from its table (R89), the well-formed table (R58), a chunk as bytes (R82) and reading the input source (R54).
There is no other operand and no immediate field (R89).
-/

namespace Sys2Proof.Machine

/-- Why a command ends without a next state. -/
inductive Stop where
  | refuse (r : Refusal)
  | fault (f : Fault)
  deriving DecidableEq, Repr

/-- What a command answers, from what its datapath gives. -/
def finish : Except Stop State → Host.Outcome State Fault Refusal
  | .ok s => .next s
  | .error (.refuse r) => .refused r
  | .error (.fault f) => .fault f

/-- `refuse <Reason>` unless the condition holds (R15). -/
def require (holds : Bool) (r : Refusal) : Except Stop Unit :=
  if holds then .ok () else .error (.refuse r)

/-- `TabRead(a, i)` (R52): element `i` of an array; outside the array it is not defined and the command that makes
the read is refused with BadIndex. -/
def tabRead (a : List Nat) (i : Nat) : Except Stop Nat :=
  match a[i]? with
  | some v => .ok v
  | none => .error (.refuse .badIndex)

/-- `total = TabRead(count_cum, n - 1)` (R89), the scale. -/
def readTotal (t : Table) : Except Stop Nat := tabRead t.countCum (t.n - 1)

/-- `cum_lo = TabRead(count_cum, index - 1)` when `index > 0`, else 0 (R89). -/
def readCumLo (t : Table) (index : Nat) : Except Stop Nat :=
  if index > 0 then tabRead t.countCum (index - 1) else .ok 0

/-- `cnt = TabRead(count, index)` (R89). -/
def readCount (t : Table) (index : Nat) : Except Stop Nat := tabRead t.count index

/-- Element `i` of `count`, as R58 and R18 write it; only used for `i < n` of a table whose arrays have `n`
elements. -/
def countAt (t : Table) (i : Nat) : Nat := t.count.getD i 0

/-- Element `i` of `count_cum`, likewise. -/
def cumAt (t : Table) (i : Nat) : Nat := t.countCum.getD i 0

/-- `cum_lo(i)`: `count_cum[i-1]` for `i > 0` and 0 for `i == 0` (R18). -/
def cumLo (t : Table) (i : Nat) : Nat := if i > 0 then cumAt t (i - 1) else 0

/-- The arrays of a table have its length (R51): part of what a table is, and so of `tableWF`. -/
def arraysOfLength (t : Table) : Bool := t.count.length == t.n && t.countCum.length == t.n

/-- `TableWF(n, count, count_cum)`, clause by clause (R58). -/
def tableWF (c : Config) (t : Table) : Bool :=
  arraysOfLength t
    && (decide (1 ≤ t.n)
    && (decide (∀ i < t.n, 1 ≤ countAt t i)
    && (decide (cumAt t 0 = countAt t 0)
    && (decide (∀ i < t.n, 1 ≤ i → cumAt t i = cumAt t (i - 1) + countAt t i)
    && decide (cumAt t (t.n - 1) ≤ c.bottom)))))

/-- The byte of `v` whose least significant bit is bit `lo`: `v[lo+7:lo]` (R11). -/
def byteAt (v lo : Nat) : Byte := BitVec.ofNat 8 (slice v (lo + 7) lo)

/-- `ChunkBytes(c)` (R82): the CB bytes of a chunk, the first in the stream first. -/
def chunkBytes (c : Config) (chunk : Nat) : List Byte :=
  match c.order with
  | .big => (List.range c.cb).map fun j => byteAt chunk (8 * (c.cb - 1 - j))
  | .little => (List.range c.cb).map fun j => byteAt chunk (8 * j)

/-- Bytes read as one number, the first most significant: `b[0] || b[1] || ...` (R82). -/
def joinBytes (bs : List Byte) : Nat := bs.foldl (fun acc b => 256 * acc + b.toNat) 0

/-- `BytesChunk(b)`, the inverse of ChunkBytes (R82). -/
def bytesChunk (c : Config) (bs : List Byte) : Nat :=
  match c.order with
  | .big => joinBytes bs
  | .little => joinBytes bs.reverse

/-- `InRead(pos, k)` (R54): the `k` bytes from offset `pos`; a read past the end, in whole or in part, is refused. -/
def inRead (inp : List Byte) (pos k : Nat) : Except Stop (List Byte) :=
  if pos + k ≤ inp.length then .ok ((inp.drop pos).take k) else .error (.refuse .streamUnderrun)

/-- `OutAppend(b)` (R53): the sink accepts every byte and keeps the order. -/
def outAppend (out bs : List Byte) : List Byte := out ++ bs

end Sys2Proof.Machine
end

