-- ==== Sys2Proof/Machine/Flags.lean ====
section
/-!
DEFINITION. The block has no status flag, no condition code and no predicate register (R29): nothing here is stored.
This file holds the comparisons that steer the commands (R125), which elsewhere would be flags: the two conditions of
RENORM, the test of SEARCH, and the guards on phase, mark and table length (R183, R186).
-/

namespace Sys2Proof.Machine

/-- The condition of RENORM's loop 1, the carry-less top check: `(low XOR ((low + range) mod 2^N)) < TOP`
(R114, R115). -/
def topAgrees (c : Config) (r : RangeState) : Bool :=
  decide (r.low ^^^ wrap c.N (r.low + r.range) < c.top)

/-- The condition of RENORM's loop 2, the underflow check: `range < BOTTOM` (R114, R116). -/
def underflows (c : Config) (r : RangeState) : Bool := decide (r.range < c.bottom)

/-- The test of SEARCH, with its tie-break: `count_cum[middle] <= target` moves the left bound up (R171, R175). -/
def movesLeftUp (element target : Nat) : Bool := decide (element ≤ target)

/-- The phases in which R28 lists a transition for a start command. -/
def Phase.mayStart (p : Phase) : Bool := p == .created

/-- The phases in which R28 lists a transition for ENCODE, DECODE and the finish commands. -/
def Phase.mayCode (p : Phase) : Bool := p == .primed || p == .coding

/-- A unit that bears a refusal mark refuses every further command, with the reason it bears (R184). -/
def unmarked : Option Refusal → Except Stop Unit
  | none => .ok ()
  | some r => .error (.refuse r)

end Sys2Proof.Machine
end

