-- ==== Sys2Proof/Machine/Ops.lean ====
section
/-!
DEFINITION. The procedures the commands share (R16): SCALE, PLACE, NARROW (R111 to R113), RENORM (R114), EMIT (R133),
CONSUME (R152), SEARCH (R171), the flush of ENC_FINISH (R134) and the priming of DEC_START (R151). Then RESET (R210),
the host's acts on the streams (R33, R55), and what a refused command leaves (R184).
The block takes no trap: there is no entry that saves state and no return from one (R180, R187, R188).
-/

namespace Sys2Proof.Machine

/-! ### Writing the state

Every command writes its own unit through one of the first two, and so leaves the other unit alone (R20, R25). -/

/-- Write the encoder unit and the output sink. -/
def State.withEnc (s : State) (e : Enc) (out : List Byte) : State := { s with enc := e, out := out }

/-- Write the decoder unit and the indices it has returned. -/
def State.withDec (s : State) (d : Dec) (results : List Nat) : State := { s with dec := d, results := results }

/-- Write the input source. -/
def State.withInp (s : State) (inp : List Byte) : State := { s with inp := inp }

/-- Write the host's moves still to come. -/
def State.withPending (s : State) (pending : List HostMove) : State := { s with pending := pending }

/-! ### Interval narrowing -/

/-- `SCALE(total)`: `range <- range / total` (R111). Its callers have refused `total == 0`. -/
def scale (total : Nat) (r : RangeState) : RangeState := { r with range := r.range / total }

/-- `PLACE(cum_lo, cnt)`: `low <- low + range * cum_lo`, then `range <- range * cnt`, both mod 2^N (R112). -/
def place (c : Config) (lo cnt : Nat) (r : RangeState) : RangeState :=
  { low := wrap c.N (r.low + r.range * lo), range := wrap c.N (r.range * cnt) }

/-- `NARROW(total, cum_lo, cnt)`: SCALE, then PLACE (R113). -/
def narrow (c : Config) (total lo cnt : Nat) (r : RangeState) : RangeState := place c lo cnt (scale total r)

/-! ### Renormalization -/

/-- The assignments of one iteration of loop 1: both registers shift left by P (R114, R115). -/
def shiftBoth (c : Config) (r : RangeState) : RangeState :=
  { low := wrap c.N (r.low <<< c.P), range := wrap c.N (r.range <<< c.P) }

/-- The assignments of one iteration of loop 2: the clamp, computed from `low` before it is shifted, and the shift of
`low` (R114, R116). -/
def clampShift (c : Config) (r : RangeState) : RangeState :=
  { low := wrap c.N (r.low <<< c.P), range := wrap c.N ((neg c.N r.low &&& (c.bottom - 1)) <<< c.P) }

/-- One `while` loop of RENORM: as long as `cond` holds, `xfer` and then the assignments `next`. The transfer sees the
registers of before the assignments (R114), and what it changes is carried in `a`. `fuel` counts the iterations left;
RENORM gives NCHUNK of them, after which every bit has been shifted out and the condition can no longer change, so a
loop that still has not ended never ends (R119). -/
def loopWhile {α : Type} (cond : RangeState → Bool) (next : RangeState → RangeState)
    (xfer : RangeState → α → Except Stop α) : Nat → RangeState → α → Except Stop (RangeState × α)
  | 0, r, a => if cond r then .error (.fault .renormNeverEnds) else .ok (r, a)
  | k + 1, r, a =>
    if cond r then (xfer r a).bind fun a' => loopWhile cond next xfer k (next r) a' else .ok (r, a)

/-- `RENORM(xfer)`: loop 1 to its exit, then loop 2 to its exit, once (R114, R117). -/
def renorm {α : Type} (c : Config) (xfer : RangeState → α → Except Stop α) (r : RangeState) (a : α) :
    Except Stop (RangeState × α) :=
  (loopWhile (topAgrees c) (shiftBoth c) xfer c.nchunk r a).bind fun x =>
    loopWhile (underflows c) (clampShift c) xfer c.nchunk x.1 x.2

/-! ### Transfers -/

/-- `low[N-1 : N-P]`, the chunk EMIT sends (R133). -/
def topChunk (c : Config) (low : Nat) : Nat := (low >>> (c.N - c.P)) &&& c.cmask

/-- `EMIT()`: append the top chunk of `low` to the output (R133). It does not change the registers. -/
def emit (c : Config) (low : Nat) (out : List Byte) : List Byte := outAppend out (chunkBytes c (topChunk c low))

/-- EMIT as RENORM's transfer; it refuses nothing (R133). -/
def emitXfer (c : Config) (r : RangeState) (out : List Byte) : Except Stop (List Byte) := .ok (emit c r.low out)

/-- `CONSUME()`: take the next chunk of the input in at the low end of `code` (R152). -/
def consume (c : Config) (inp : List Byte) (w : Window) : Except Stop Window :=
  (inRead inp w.rpos c.cb).bind fun bs =>
    .ok { code := wrap c.N ((w.code <<< c.P) + bytesChunk c bs), rpos := w.rpos + c.cb }

/-- CONSUME as RENORM's transfer; it does not look at `low` or `range` (R152). -/
def consumeXfer (c : Config) (inp : List Byte) (_ : RangeState) (w : Window) : Except Stop Window := consume c inp w

/-- `for k in 1..m: EMIT(); low <- low << P`, the loop of ENC_FINISH (R134). -/
def flush (c : Config) : Nat → Nat → List Byte → Nat × List Byte
  | 0, low, out => (low, out)
  | m + 1, low, out => flush c m (wrap c.N (low <<< c.P)) (emit c low out)

/-- `for k in 1..m: CONSUME()`, the loop of DEC_START (R151). -/
def prime (c : Config) (inp : List Byte) : Nat → Window → Except Stop Window
  | 0, w => .ok w
  | m + 1, w => (consume c inp w).bind fun w' => prime c inp m w'

/-! ### Interval search -/

/-- The loop of SEARCH from the bounds `left` and `right` (R171). `fuel` is at least `right - left`, which shrinks at
every iteration, so at 0 the bounds have met. -/
def searchLoop (countCum : List Nat) (target : Nat) : Nat → Nat → Nat → Except Stop Nat
  | 0, left, _ => .ok left
  | k + 1, left, right =>
    if left < right then
      (tabRead countCum ((left + right) / 2)).bind fun element =>
        if movesLeftUp element target then searchLoop countCum target k ((left + right) / 2 + 1) right
        else searchLoop countCum target k left ((left + right) / 2)
    else .ok left

/-- `SEARCH(n, count_cum, target)` (R171). -/
def search (n : Nat) (countCum : List Nat) (target : Nat) : Except Stop Nat :=
  searchLoop countCum target (n - 1) 0 (n - 1)

/-- `target = ((code - low) mod 2^N) / range` (R153 step 2), with the `range` SCALE left. A divisor of 0 has no result
(R123). -/
def targetOf (c : Config) (r : RangeState) (code : Nat) : Except Stop Nat :=
  if r.range = 0 then .error (.fault .divisorZero) else .ok (subWrap c.N code r.low / r.range)

/-! ### RESET and the host's acts -/

/-- RESET restricted to ENC: its registers, its phase, its mark and `out` (R36, R37, R39, R41, R210). -/
def resetEnc (s : State) : State := s.withEnc (Enc.fresh s.cfg) []

/-- RESET restricted to DEC: its registers, its phase, its mark and the indices returned (R36 to R40, R210). The
binding of `inp` stays (R41). -/
def resetDec (s : State) : State := s.withDec (Dec.fresh s.cfg) []

/-- RESET of the whole block (R210, R211); the configuration and the bound input stay (R41, R42). -/
def resetBlock (s : State) : State := resetDec (resetEnc s)

/-- The host's act of giving DEC an input source: not between DEC_START and DEC_FINISH (R33, R218).
DESIGN CHOICE (log 7): whether the host may do so while DEC bears a refusal mark is open in the spec, and the test is of
the phase alone, mark or no mark. After a refused command of DEC the phase is a free value (log 8), so nothing can be
claimed of the outcome until DEC is RESET (safe); after a reserved word it is the phase DEC had (unsafe). -/
def bindInput (bytes : List Byte) (s : State) : Host.Outcome State Fault Refusal :=
  if s.dec.phase.mayCode then .refused .noSuchHostMove else .next (s.withInp bytes)

/-- LINK: the complete `out` of a finalized ENC session becomes `inp` (R55). Nothing may be claimed of the `out` of a
unit that bears a mark (R184), so there LINK is no move of the host (DESIGN CHOICE, log 7). While DEC bears a mark, LINK
is as `bindInput` says. -/
def linkStreams (s : State) : Host.Outcome State Fault Refusal :=
  if s.enc.phase == .finalized && s.enc.mark.isNone then bindInput s.out s else .refused .noSuchHostMove

/-! ### What a refused command leaves -/

/-- Put a refusal mark on a unit; the first mark stays (R184). -/
def markUnit (u : UnitName) (r : Refusal) (s : State) : State :=
  match u with
  | .enc => s.withEnc { s.enc with mark := some (s.enc.mark.getD r) } s.out
  | .dec => s.withDec { s.dec with mark := some (s.dec.mark.getD r) } s.results

/-- FREE VALUE (log 8): ENC's registers and `out` after a command of ENC was refused in state `s`. The spec gives a
refused command no next state, and nothing may be claimed of the unit from then on (R184). -/
opaque unclaimedEnc (s : State) : Enc × List Byte

/-- FREE VALUE (log 8): DEC's registers and the returned indices after a command of DEC was refused in state `s`
(R184). -/
opaque unclaimedDec (s : State) : Dec × List Nat

/-- Replace what the refused unit holds by free values; its mark is not one of them (R184). -/
def unclaimUnit (u : UnitName) (s : State) : State :=
  match u with
  | .enc => s.withEnc { (unclaimedEnc s).1 with mark := s.enc.mark } (unclaimedEnc s).2
  | .dec => s.withDec { (unclaimedDec s).1 with mark := s.dec.mark } (unclaimedDec s).2

/-- What a refused command does to the unit that CW[2] names: a reserved word changes no state (R90), a refused command
leaves nothing that may be claimed (R184). -/
def disturbUnit (p : Presented) (s : State) : State :=
  match decode p with
  | .error _ => s
  | .ok _ => unclaimUnit (cwUnit p.cw) s

/-- How the host goes on after a move was refused (R184): the move is over, and if it was a command then the unit that
CW[2] names bears the refusal mark and, unless the word was reserved, holds free values. The other unit is not
affected (R20). A refused command has NO next state of its own: `step` answers a refusal, and this is the state in
which the block's OTHER unit, or a RESET, can be looked at afterwards. -/
def afterRefusal (r : Refusal) (s : State) : State :=
  match s.pending with
  | [] => s
  | .command p :: rest => markUnit (cwUnit p.cw) r ((disturbUnit p s).withPending rest)
  | _ :: rest => s.withPending rest

end Sys2Proof.Machine
end

