-- ==== Sys2Proof/Machine/Decoder.lean ====
section
/-!
DEFINITION. The commands of the decoder unit DEC (42_decoder.md): DEC_START, DECODE, DEC_FINISH. The order of the
guards is that of R186; a refusal inside a command refuses the whole command (R153).
-/

namespace Sys2Proof.Machine

/-- DEC_START (R151): rewind, clear `code`, take NCHUNK chunks in; the phase is PRIMED. -/
def execDecStart (s : State) : Host.Outcome State Fault Refusal :=
  finish (do
    unmarked s.dec.mark
    require s.dec.phase.mayStart .badPhase
    let w ← prime s.cfg s.inp s.cfg.nchunk { code := 0, rpos := 0 }
    return s.withDec { s.dec with toWindow := w, phase := .primed } s.results)

/-- DECODE (R153): the guards, SCALE, the target, SEARCH, PLACE with the found index (no second division, D12),
RENORM(CONSUME), the phase CODING, and the index as the result. -/
def execDecode (t : Table) (s : State) : Host.Outcome State Fault Refusal :=
  finish (do
    unmarked s.dec.mark
    require s.dec.phase.mayCode .badPhase
    require (s.cfg.admits t.n) .badTable
    require (tableWF s.cfg t) .badTable
    let total ← readTotal t
    let r := scale total s.dec.toRangeState
    let target ← targetOf s.cfg r s.dec.code
    let i ← search t.n t.countCum target
    let lo ← readCumLo t i
    let cnt ← readCount t i
    let x ← renorm s.cfg (consumeXfer s.cfg s.inp) (place s.cfg lo cnt r) s.dec.toWindow
    return s.withDec { s.dec with toRangeState := x.1, toWindow := x.2, phase := .coding } (s.results ++ [i]))

/-- DEC_FINISH (R156): the phase is FINALIZED; nothing else changes. -/
def execDecFinish (s : State) : Host.Outcome State Fault Refusal :=
  finish (do
    unmarked s.dec.mark
    require s.dec.phase.mayCode .badPhase
    return s.withDec { s.dec with phase := .finalized } s.results)

end Sys2Proof.Machine
end

