-- ==== Sys2Proof/Machine/Encoder.lean ====
section
/-!
DEFINITION. The commands of the encoder unit ENC (41_encoder.md): ENC_START, ENCODE, ENC_FINISH. The order of the
guards is that of R186.
-/

namespace Sys2Proof.Machine

/-- ENC_START (R131): CREATED becomes PRIMED; nothing else changes. -/
def execEncStart (s : State) : Host.Outcome State Fault Refusal :=
  finish (do
    unmarked s.enc.mark
    require s.enc.phase.mayStart .badPhase
    return s.withEnc { s.enc with phase := .primed } s.out)

/-- ENCODE (R132): the guards, then NARROW by the symbol's interval, RENORM(EMIT), and the phase CODING. -/
def execEncode (t : Table) (index : Nat) (s : State) : Host.Outcome State Fault Refusal :=
  finish (do
    unmarked s.enc.mark
    require s.enc.phase.mayCode .badPhase
    require (s.cfg.admits t.n) .badTable
    require (decide (index < t.n)) .badIndex
    require (tableWF s.cfg t) .badTable
    let total ← readTotal t
    let lo ← readCumLo t index
    let cnt ← readCount t index
    let x ← renorm s.cfg (emitXfer s.cfg) (narrow s.cfg total lo cnt s.enc.toRangeState) s.out
    return s.withEnc { s.enc with toRangeState := x.1, phase := .coding } x.2)

/-- ENC_FINISH (R134): flush the NCHUNK chunks of `low`; `range` stays; the phase is FINALIZED. -/
def execEncFinish (s : State) : Host.Outcome State Fault Refusal :=
  finish (do
    unmarked s.enc.mark
    require s.enc.phase.mayCode .badPhase
    let x := flush s.cfg s.cfg.nchunk s.enc.low s.out
    return s.withEnc { s.enc with low := x.1, phase := .finalized } x.2)

end Sys2Proof.Machine
end

