-- ==== Sys2Proof/Machine/Dispatch.lean ====
section
/-!
DEFINITION. One arm per command (R88).
-/

namespace Sys2Proof.Machine

-- exec runs one command on the unit its word names; each command is one atomic transition (R16).
def exec (i : Instr) (s : State) : Host.Outcome State Fault Refusal :=
  match i with
  -- the encoder unit (41_encoder.md)
  | .encStart => Sys2Proof.Machine.execEncStart s
  | .encode t index => Sys2Proof.Machine.execEncode t index s
  | .encFinish => Sys2Proof.Machine.execEncFinish s
  -- the decoder unit (42_decoder.md)
  | .decStart => Sys2Proof.Machine.execDecStart s
  | .decode t => Sys2Proof.Machine.execDecode t s
  | .decFinish => Sys2Proof.Machine.execDecFinish s

end Sys2Proof.Machine
end

