-- ==== Sys2Proof/Machine/Step.lean ====
section
/-!
DEFINITION. One step of the machine. The block has no program counter and fetches nothing: the host presents its moves
one at a time and each runs to completion (R27), so a step takes the host's next move.
-/

namespace Sys2Proof.Machine

/-- A presented command: a reserved word is refused (R90), any other is the command it stands for. -/
def present (p : Presented) (s : State) : Host.Outcome State Fault Refusal :=
  match decode p with
  | .error _ => .refused .reservedCommand
  | .ok i => exec i s

/-- One move of the host. -/
def perform (m : HostMove) (s : State) : Host.Outcome State Fault Refusal :=
  match m with
  | .command p => present p s
  | .reset => .next (resetBlock s)
  | .resetEnc => .next (resetEnc s)
  | .resetDec => .next (resetDec s)
  | .link => linkStreams s
  | .bind bytes => bindInput bytes s

/-- One step: the host's next move. Without one nothing happens and the state stays (R195; DEDUCED, log 6). -/
def step (s : State) : Host.Outcome State Fault Refusal :=
  match s.pending with
  | [] => .next s
  | m :: rest => perform m (s.withPending rest)

/-- The machine as its host sees it from move to move: after a refusal the host goes on with the refused unit marked
(R184, log 8); a command whose datapath never ends leaves the machine where it is. -/
def advance (s : State) : State :=
  match step s with
  | .next t => t
  | .refused r => afterRefusal r s
  | .fault _ => s

/-- `s` with the command word `w` presented next, on idle ports. -/
def State.withFetchWord (s : State) (_nbits w : Nat) : State :=
  s.withPending (.command ⟨BitVec.ofNat 8 w, Ports.idle⟩ :: s.pending)

end Sys2Proof.Machine
end

