-- ==== Sys2Proof/Safety.lean ====
section
/-!
DEFINITION. The terms claims are stated in: the invariants of the Range State (R34, R118) and of the whole machine, the
runs of RENORM's while loops as R114 writes them (a relation, without fuel), the views of one unit, and a whole session
of the two units (R138, R215, R94).
-/

namespace Sys2Proof.Machine

/-! ### Invariants -/

/-- The invariant J of R118: `range >= 1`, `low + range <= 2^N`, and if `low + range == 2^N` then `low >= TOP`. -/
def RangeState.Placed (c : Config) (r : RangeState) : Prop :=
  1 ≤ r.range ∧ r.low + r.range ≤ 2 ^ c.N ∧ (r.low + r.range = 2 ^ c.N → c.top ≤ r.low)

/-- The invariant of the Range State between commands: J, and `BOTTOM <= range <= MASK` (R34). -/
def RangeState.Settled (c : Config) (r : RangeState) : Prop :=
  r.Placed c ∧ c.bottom ≤ r.range ∧ r.range ≤ c.mask

/-- ENC between commands: R34; in CREATED the registers are those RESET left and nothing has been sent (R131); the
flush leaves `low = 0` (R134); the output is whole chunks (R33, R62). -/
def Enc.Inv (c : Config) (e : Enc) (out : List Byte) : Prop :=
  e.toRangeState.Settled c
    ∧ (e.phase = .created → e.low = 0 ∧ e.range = c.mask ∧ out = [])
    ∧ (e.phase = .finalized → e.low = 0)
    ∧ out.length % c.cb = 0

/-- DEC between commands: R34; `code` is an N-bit value (R23, R24); `rpos` is a multiple of CB (R32, R62); before and
right after priming the Range State is the one RESET left (R151); while the session runs, the bytes already taken in
lie inside the input. -/
def Dec.Inv (c : Config) (d : Dec) (inp : List Byte) : Prop :=
  d.toRangeState.Settled c
    ∧ d.code < 2 ^ c.N
    ∧ d.rpos % c.cb = 0
    ∧ (d.phase = .created → d.code = 0 ∧ d.rpos = 0)
    ∧ (d.phase = .created ∨ d.phase = .primed → d.low = 0 ∧ d.range = c.mask)
    ∧ (d.phase.mayCode = true → d.rpos ≤ inp.length)

/-- The invariant every step keeps. Of a unit that bears a refusal mark it says nothing: nothing may be claimed of one
(R184). -/
def State.Inv (s : State) : Prop :=
  (s.enc.mark = none → s.enc.Inv s.cfg s.out) ∧ (s.dec.mark = none → s.dec.Inv s.cfg s.inp)

/-- A run of one unit has ended: its phase is FINALIZED and it bears no refusal mark (R225). -/
def ended (phase : Phase) (mark : Option Refusal) : Prop := phase = .finalized ∧ mark = none

/-! ### The while loops of RENORM, as R114 writes them -/

/-- `LoopRuns cond next xfer r a k r' a'`: the loop `while cond: xfer(); next` started on registers `r` with `a` makes
`k` iterations, every transfer succeeds, and it ends on `r'` with `a'`. -/
inductive LoopRuns {α : Type} (cond : RangeState → Bool) (next : RangeState → RangeState)
    (xfer : RangeState → α → Except Stop α) : RangeState → α → Nat → RangeState → α → Prop where
  | exit {r : RangeState} {a : α} : cond r = false → LoopRuns cond next xfer r a 0 r a
  | again {r r' : RangeState} {a a' a'' : α} {k : Nat} :
      cond r = true → xfer r a = .ok a' → LoopRuns cond next xfer (next r) a' k r' a'' →
      LoopRuns cond next xfer r a (k + 1) r' a''

/-- `RENORM(xfer)` makes `k1` iterations of loop 1 and then `k2` of loop 2 (R114, R117). -/
def RenormRuns {α : Type} (c : Config) (xfer : RangeState → α → Except Stop α) (r : RangeState) (a : α)
    (k1 k2 : Nat) (r' : RangeState) (a' : α) : Prop :=
  ∃ m b, LoopRuns (topAgrees c) (shiftBoth c) xfer r a k1 m b
    ∧ LoopRuns (underflows c) (clampShift c) xfer m b k2 r' a'

/-! ### The interval of a symbol -/

/-- The registers NARROW leaves for symbol `i` of table `t`, in exact integers: `r = range / total` is the per-unit
width, `low` moves up by `r * cum_lo(i)` and `range` becomes `r * count[i]` (R111, R112). -/
def placedAt (t : Table) (i : Nat) (r : RangeState) : RangeState :=
  { low := r.low + r.range / cumAt t (t.n - 1) * cumLo t i
    range := r.range / cumAt t (t.n - 1) * countAt t i }

/-- The target of a DECODE, `((code - low) mod 2^N) / (range / total)` in exact integers (R153 steps 1 and 2). -/
def targetAt (c : Config) (t : Table) (d : Dec) : Nat :=
  ((d.code + (2 ^ c.N - d.low)) % 2 ^ c.N) / (d.range / cumAt t (t.n - 1))

/-- `i` is the index a DECODE with this target finds: the smallest whose sum is above the target, the last if there is
none (R153 step 3, R172, R173). -/
def Found (t : Table) (target i : Nat) : Prop :=
  i < t.n ∧ (∀ j < i, cumAt t j ≤ target) ∧ (target < cumAt t i ∨ i = t.n - 1)

/-! ### Bytes -/

/-- Chunk `k` of an N-bit value, chunk 0 the most significant: `v[N-kP-1 : N-(k+1)P]`. -/
def chunkOf (c : Config) (v k : Nat) : Nat := v / 2 ^ (c.N - (k + 1) * c.P) % 2 ^ c.P

/-- The value of chunk `k` of a byte sequence cut into chunks of CB bytes (R81, R82). -/
def chunkIn (c : Config) (bs : List Byte) (k : Nat) : Nat := bytesChunk c ((bs.drop (k * c.cb)).take c.cb)

/-- The first `m` chunks of a byte sequence as one number, the first chunk most significant: `c_1 || ... || c_m`
(R60, R151). -/
def chunksValue (c : Config) (bs : List Byte) : Nat → Nat
  | 0 => 0
  | m + 1 => chunksValue c bs m * 2 ^ c.P + chunkIn c bs m

/-! ### The units' sides of a step -/

/-- The unit a command belongs to (R88). -/
def unitOf : Instr → UnitName
  | .encStart => .enc
  | .encode _ _ => .enc
  | .encFinish => .enc
  | .decStart => .dec
  | .decode _ => .dec
  | .decFinish => .dec

/-- The mark of a unit (R184). -/
def markOf (u : UnitName) (s : State) : Option Refusal :=
  match u with
  | .enc => s.enc.mark
  | .dec => s.dec.mark

/-- The phase of a unit (R27). -/
def phaseOf (u : UnitName) (s : State) : Phase :=
  match u with
  | .enc => s.enc.phase
  | .dec => s.dec.phase

/-- R28, the start commands: CREATED becomes PRIMED. -/
def afterStart : Phase → Option Phase
  | .created => some .primed
  | .primed => none
  | .coding => none
  | .finalized => none

/-- R28, ENCODE and DECODE: PRIMED or CODING becomes CODING. -/
def afterCode : Phase → Option Phase
  | .created => none
  | .primed => some .coding
  | .coding => some .coding
  | .finalized => none

/-- R28, the finish commands: PRIMED or CODING becomes FINALIZED. -/
def afterFinish : Phase → Option Phase
  | .created => none
  | .primed => some .finalized
  | .coding => some .finalized
  | .finalized => none

/-- The transitions of R28: the phase a command leads to, or none where it is illegal. -/
def transition : Instr → Phase → Option Phase
  | .encStart => afterStart
  | .encode _ _ => afterCode
  | .encFinish => afterFinish
  | .decStart => afterStart
  | .decode _ => afterCode
  | .decFinish => afterFinish

/-! ### Sessions -/

/-- A symbol the encoder accepts in configuration `c`: its table's length is accepted and well-formed, and its index
is in the table (R132). -/
def Codable (c : Config) (x : Table × Nat) : Prop :=
  c.admits x.1.n = true ∧ tableWF c x.1 = true ∧ x.2 < x.1.n

/-- The host presents a command (R87). -/
def presents (i : Instr) : HostMove := .command (encode i)

/-- An encoder session of these symbols (R94, R138). -/
def encSession (xs : List (Table × Nat)) : List HostMove :=
  presents .encStart :: xs.map (fun x => presents (.encode x.1 x.2)) ++ [presents .encFinish]

/-- A decoder session with the tables of these symbols (R94, R215). -/
def decSession (xs : List (Table × Nat)) : List HostMove :=
  presents .decStart :: xs.map (fun x => presents (.decode x.1)) ++ [presents .decFinish]

/-- An encoder session, LINK, and the matching decoder session (R18, R215). -/
def matchingSessions (xs : List (Table × Nat)) : List HostMove := encSession xs ++ .link :: decSession xs

/-- `k` steps, stopping at the first fault or refusal. -/
def runSteps : Nat → State → Host.Outcome State Fault Refusal
  | 0, s => .next s
  | k + 1, s =>
    match step s with
    | .next t => runSteps k t
    | .fault f => .fault f
    | .refused r => .refused r

end Sys2Proof.Machine
end

