-- ==== Sys2Proof/Certificates/Slice0/Obligations.lean ====
section
/-!
DEFINITION. The statements about the model, in the spec's terms: the command map, RESET and the invariant, the two
units command by command, the renormalization and the search engine, the frames and the whole-machine rules, and the
round trip of a matching pair of sessions. Each docstring names the rule it formalises. Nothing is proved here.
-/

open Sys2Proof Sys2Proof.Machine

/-! ### The command port -/

/-- R88: the six words of the command map stand for the six commands, with their operands taken from the ports, and no
other word stands for a command. -/
def Obligations.CommandMapHasSixWords : Prop :=
  (∀ p : Ports,
    decode ⟨0x00#8, p⟩ = .ok .encStart ∧ decode ⟨0x01#8, p⟩ = .ok (.encode ⟨p.n, p.count, p.countCum⟩ p.index) ∧
    decode ⟨0x02#8, p⟩ = .ok .encFinish ∧ decode ⟨0x04#8, p⟩ = .ok .decStart ∧
    decode ⟨0x05#8, p⟩ = .ok (.decode ⟨p.n, p.count, p.countCum⟩) ∧ decode ⟨0x06#8, p⟩ = .ok .decFinish) ∧
  ∀ (w : BitVec 8) (p : Ports) (i : Instr), decode ⟨w, p⟩ = .ok i →
    w = 0x00#8 ∨ w = 0x01#8 ∨ w = 0x02#8 ∨ w = 0x04#8 ∨ w = 0x05#8 ∨ w = 0x06#8

/-- R90: the words 0x03, 0x07 and 0x08 to 0xFF are refused with ReservedCommand and change no register, no stream and
no configuration; what the host finds afterwards differs only by the move taken and the refusal mark (the mark's place
is the model's choice, log 4). -/
def Obligations.ReservedWordsAreRefused : Prop :=
  ∀ (s : State) (w : BitVec 8) (p : Ports) (rest : List HostMove), s.pending = .command ⟨w, p⟩ :: rest →
    (w = 0x03#8 ∨ w = 0x07#8 ∨ 0x08#8 ≤ w) →
    step s = .refused .reservedCommand ∧
    (advance s).enc.toRangeState = s.enc.toRangeState ∧ (advance s).enc.phase = s.enc.phase ∧
    (advance s).dec.toRangeState = s.dec.toRangeState ∧ (advance s).dec.toWindow = s.dec.toWindow ∧
    (advance s).dec.phase = s.dec.phase ∧ (advance s).out = s.out ∧ (advance s).inp = s.inp ∧
    (advance s).results = s.results ∧ (advance s).cfg = s.cfg ∧ (advance s).pending = rest

/-- R86 to R88, both ways: every command, presented, decodes to itself with every operand; and a word that decodes to a
command is the word that command is presented with. -/
def Obligations.DecodeEncodeAgree : Prop :=
  (∀ i : Instr, decode (encode i) = .ok i) ∧
  ∀ (p : Presented) (i : Instr), decode p = .ok i → (encode i).cw = p.cw

/-- A step runs the decoded command: where the host presents a command next and its word decodes to `i`, the step is
`exec i` on the state with that move taken (R27, R87). That a step without a move changes nothing is the model's own
(DEDUCED, log 6). -/
def Obligations.StepRunsThePresentedCommand : Prop :=
  (∀ (s : State) (p : Presented) (i : Instr) (rest : List HostMove), s.pending = .command p :: rest →
    decode p = .ok i → step s = exec i (s.withPending rest)) ∧
  ∀ s : State, s.pending = [] → step s = .next s

/-! ### RESET, the invariant, the configuration -/

/-- R36 to R42, R210: RESET completes in every state, gives both units the stated values, empties `out`, keeps what the
host has bound and leaves the configuration alone; RESET of one unit does so for that unit only. -/
def Obligations.ResetLeavesTheStatedValues : Prop :=
  ∀ (s : State) (rest : List HostMove),
    (s.pending = .reset :: rest → ∃ t, step s = .next t ∧
      t.enc = { low := 0, range := 2 ^ s.cfg.N - 1, phase := .created, mark := none } ∧ t.out = [] ∧
      t.dec = { low := 0, range := 2 ^ s.cfg.N - 1, code := 0, rpos := 0, phase := .created, mark := none } ∧
      t.inp = s.inp ∧ t.cfg = s.cfg ∧ t.pending = rest) ∧
    (s.pending = .resetEnc :: rest → ∃ t, step s = .next t ∧
      t.enc = { low := 0, range := 2 ^ s.cfg.N - 1, phase := .created, mark := none } ∧ t.out = [] ∧
      t.dec = s.dec ∧ t.inp = s.inp ∧ t.results = s.results ∧ t.cfg = s.cfg ∧ t.pending = rest) ∧
    (s.pending = .resetDec :: rest → ∃ t, step s = .next t ∧
      t.dec = { low := 0, range := 2 ^ s.cfg.N - 1, code := 0, rpos := 0, phase := .created, mark := none } ∧
      t.enc = s.enc ∧ t.out = s.out ∧ t.inp = s.inp ∧ t.cfg = s.cfg ∧ t.pending = rest)

/-- The invariant of the machine (R34, R131, R134, R151, R62) holds right after RESET in every configuration, whatever
input is bound and whatever the host has lined up, and so at `State.reset` (whose configuration and streams are the model's
choice, log 2 and log 3). -/
def Obligations.ResetMeetsTheInvariant : Prop :=
  (∀ (c : Config) (inp : List Byte) (ms : List HostMove), (State.fresh c inp ms).Inv) ∧ State.reset.Inv

/-- R34, R118 and the rest of the invariant: every step from a state of the invariant that answers a next state gives a
state of the invariant, whatever the host's move. Of a unit that bears a refusal mark the invariant says nothing (R184). -/
def Obligations.EveryStepKeepsTheInvariant : Prop :=
  ∀ s t : State, s.Inv → step s = .next t → t.Inv

/-- The same from move to move, across refusals (R184), as `advance` goes on after one (DESIGN CHOICE, log 8). -/
def Obligations.AdvanceKeepsTheInvariant : Prop :=
  ∀ s : State, s.Inv → (advance s).Inv

/-- R223, R119, R123: in a state of the invariant no command hangs and nothing divides by 0: every step answers a next
state or a refusal. -/
def Obligations.NoStepFaults : Prop :=
  ∀ s : State, s.Inv → ∀ f : Fault, step s ≠ .fault f

/-- R42, R30: no step changes the configuration, RESET included. -/
def Obligations.ConfigurationNeverChanges : Prop :=
  ∀ s t : State, step s = .next t → t.cfg = s.cfg

/-! ### The encoder unit -/

/-- R131: ENC_START in CREATED changes the phase to PRIMED and nothing else; in another phase it is refused with
BadPhase. -/
def Obligations.EncStartPrimes : Prop :=
  ∀ s : State, s.enc.mark = none →
    (s.enc.phase = .created → exec .encStart s = .next (s.withEnc { s.enc with phase := .primed } s.out)) ∧
    (s.enc.phase ≠ .created → exec .encStart s = .refused .badPhase)

/-- R132 with R112 and R119: in PRIMED or CODING, with an accepted length, an index of the table and a well-formed
table, in a state of the invariant R34, ENCODE completes: the registers become the exact interval of the symbol,
renormalized by the while loops of R114 with EMIT, at most NCHUNK - 1 and NCHUNK - 2 iterations of them, one chunk of
CB bytes appended to `out` for each; the phase is CODING; nothing else changes. -/
def Obligations.EncodeCompletes : Prop :=
  ∀ (s : State) (t : Table) (index : Nat), s.enc.mark = none → s.enc.phase = .primed ∨ s.enc.phase = .coding →
    s.cfg.admits t.n = true → index < t.n → tableWF s.cfg t = true → s.enc.toRangeState.Settled s.cfg →
    ∃ k1 k2 r out',
      exec (.encode t index) s = .next (s.withEnc { s.enc with toRangeState := r, phase := .coding } out') ∧
      RenormRuns s.cfg (emitXfer s.cfg) (placedAt t index s.enc.toRangeState) s.out k1 k2 r out' ∧
      k1 ≤ s.cfg.nchunk - 1 ∧ k2 ≤ s.cfg.nchunk - 2 ∧
      out'.length = s.out.length + (k1 + k2) * s.cfg.cb ∧ s.out <+: out' ∧ r.Settled s.cfg

/-- R183, R186, R91: an ENCODE outside its guards is refused with the first reason that applies, in the order phase,
length, index, table. -/
def Obligations.EncodeRefusalsInOrder : Prop :=
  ∀ (s : State) (t : Table) (index : Nat), s.enc.mark = none →
    (s.enc.phase ≠ .primed ∧ s.enc.phase ≠ .coding → exec (.encode t index) s = .refused .badPhase) ∧
    (s.enc.phase = .primed ∨ s.enc.phase = .coding →
      (s.cfg.admits t.n = false → exec (.encode t index) s = .refused .badTable) ∧
      (s.cfg.admits t.n = true → t.n ≤ index → exec (.encode t index) s = .refused .badIndex) ∧
      (s.cfg.admits t.n = true → index < t.n → tableWF s.cfg t = false →
        exec (.encode t index) s = .refused .badTable))

/-- R134: ENC_FINISH in PRIMED or CODING appends the NCHUNK chunks of `low`, the most significant first, N/8 bytes in
all, leaves `low = 0` and `range` as it was, and the phase is FINALIZED; nothing else changes. In another phase it is
refused with BadPhase. -/
def Obligations.EncFinishFlushesLow : Prop :=
  ∀ s : State, s.enc.mark = none →
    (s.enc.phase = .primed ∨ s.enc.phase = .coding →
      ∃ bs, exec .encFinish s = .next (s.withEnc { s.enc with low := 0, phase := .finalized } (s.out ++ bs)) ∧
        bs = (List.range s.cfg.nchunk).flatMap (fun k => chunkBytes s.cfg (chunkOf s.cfg s.enc.low k)) ∧
        bs.length = s.cfg.N / 8) ∧
    (s.enc.phase = .created ∨ s.enc.phase = .finalized → exec .encFinish s = .refused .badPhase)

/-- R134: with BYTE_ORDER big the flush is `low` as an N/8-byte big-endian number. -/
def Obligations.EncFinishBigEndian : Prop :=
  ∀ s t : State, s.cfg.order = .big → s.enc.low < 2 ^ s.cfg.N → exec .encFinish s = .next t →
    ∃ bs, t.out = s.out ++ bs ∧ bs.length = s.cfg.N / 8 ∧ joinBytes bs = s.enc.low

/-- R133: EMIT appends the bytes of the top P bits of `low` and nothing else. -/
def Obligations.EmitAppendsTheTopChunk : Prop :=
  ∀ (c : Config) (low : Nat) (out : List Byte), low < 2 ^ c.N →
    emit c low out = out ++ chunkBytes c (low / 2 ^ (c.N - c.P)) ∧ (emit c low out).length = out.length + c.P / 8

/-! ### The decoder unit -/

/-- R151: DEC_START in CREATED with at least N/8 bytes of input completes: `code` becomes the first NCHUNK chunks of
the input, the first most significant, `rpos` becomes N/8, `low` and `range` stay, the phase is PRIMED; nothing else
changes. On fewer bytes it is refused with StreamUnderrun, no zero fill (R54); in another phase with BadPhase. -/
def Obligations.DecStartPrimes : Prop :=
  ∀ s : State, s.dec.mark = none →
    (s.dec.phase = .created → s.cfg.N / 8 ≤ s.inp.length →
      exec .decStart s = .next (s.withDec
        { s.dec with code := chunksValue s.cfg s.inp s.cfg.nchunk, rpos := s.cfg.N / 8, phase := .primed } s.results)) ∧
    (s.dec.phase = .created → s.inp.length < s.cfg.N / 8 → exec .decStart s = .refused .streamUnderrun) ∧
    (s.dec.phase ≠ .created → exec .decStart s = .refused .badPhase)

/-- R152: CONSUME takes the CB bytes at `rpos`; the shift drops the top P bits of `code` and the chunk fills the low P
bits; past the end of the input, in whole or in part, it is refused. -/
def Obligations.ConsumeTakesOneChunk : Prop :=
  ∀ (c : Config) (inp : List Byte) (w : Window),
    (w.rpos + c.cb ≤ inp.length →
      consume c inp w = .ok
        { code := w.code % 2 ^ (c.N - c.P) * 2 ^ c.P + bytesChunk c ((inp.drop w.rpos).take c.cb),
          rpos := w.rpos + c.cb }) ∧
    (inp.length < w.rpos + c.cb → consume c inp w = .error (.refuse .streamUnderrun))

/-- R153 with R112, R119, R171 to R173: in PRIMED or CODING, with an accepted length and a well-formed table, in a
state of the invariant R34, and with input for the most chunks a RENORM can take, DECODE completes: the target is
`((code - low) mod 2^N) / (range / total)`, the index returned is the smallest whose sum is above the target (the last
index if there is none), the registers become the exact interval of that symbol, renormalized by the while loops with
CONSUME; the phase is CODING; nothing else changes. -/
def Obligations.DecodeCompletes : Prop :=
  ∀ (s : State) (t : Table), s.dec.mark = none → s.dec.phase = .primed ∨ s.dec.phase = .coding →
    s.cfg.admits t.n = true → tableWF s.cfg t = true → s.dec.toRangeState.Settled s.cfg →
    s.dec.rpos + (2 * s.cfg.nchunk - 3) * s.cfg.cb ≤ s.inp.length →
    ∃ i k1 k2 r w,
      exec (.decode t) s = .next
        (s.withDec { s.dec with toRangeState := r, toWindow := w, phase := .coding } (s.results ++ [i])) ∧
      Found t (targetAt s.cfg t s.dec) i ∧
      RenormRuns s.cfg (consumeXfer s.cfg s.inp) (placedAt t i s.dec.toRangeState) s.dec.toWindow k1 k2 r w ∧
      k1 ≤ s.cfg.nchunk - 1 ∧ k2 ≤ s.cfg.nchunk - 2 ∧ w.rpos = s.dec.rpos + (k1 + k2) * s.cfg.cb ∧
      r.Settled s.cfg

/-- R153 with R120, R54 and R157: the chunks a DECODE takes in are those its RENORM would emit from the same registers;
with exactly that much input left, or more, it completes, and with less it is refused with StreamUnderrun. (That `rpos`
lies inside the input is part of the invariant of DEC.) -/
def Obligations.DecodeTakesTheChunksItsRenormNeeds : Prop :=
  ∀ (s : State) (t : Table) (i k1 k2 : Nat) (r : RangeState) (out out' : List Byte), s.dec.mark = none →
    s.dec.phase = .primed ∨ s.dec.phase = .coding → s.cfg.admits t.n = true → tableWF s.cfg t = true →
    s.dec.toRangeState.Settled s.cfg → Found t (targetAt s.cfg t s.dec) i →
    RenormRuns s.cfg (emitXfer s.cfg) (placedAt t i s.dec.toRangeState) out k1 k2 r out' →
    (s.dec.rpos + (k1 + k2) * s.cfg.cb ≤ s.inp.length →
      ∃ w, exec (.decode t) s = .next
          (s.withDec { s.dec with toRangeState := r, toWindow := w, phase := .coding } (s.results ++ [i])) ∧
        w.rpos = s.dec.rpos + (k1 + k2) * s.cfg.cb) ∧
    (s.dec.rpos ≤ s.inp.length → s.inp.length < s.dec.rpos + (k1 + k2) * s.cfg.cb →
      exec (.decode t) s = .refused .streamUnderrun)

/-- R183, R186, R91: a DECODE outside its guards is refused with the first reason that applies, in the order phase,
length, table. -/
def Obligations.DecodeRefusalsInOrder : Prop :=
  ∀ (s : State) (t : Table), s.dec.mark = none →
    (s.dec.phase ≠ .primed ∧ s.dec.phase ≠ .coding → exec (.decode t) s = .refused .badPhase) ∧
    (s.dec.phase = .primed ∨ s.dec.phase = .coding →
      (s.cfg.admits t.n = false → exec (.decode t) s = .refused .badTable) ∧
      (s.cfg.admits t.n = true → tableWF s.cfg t = false → exec (.decode t) s = .refused .badTable))

/-- R155, R113: where `code` lies in the sub-interval of symbol `i`, a DECODE that answers a next state returns `i`,
and its registers are those of the ENCODE of `i` from the same Range State. -/
def Obligations.DecodeReturnsTheSymbolOfTheInterval : Prop :=
  ∀ (s u : State) (t : Table) (i : Nat), s.dec.toRangeState.Settled s.cfg → tableWF s.cfg t = true → i < t.n →
    (placedAt t i s.dec.toRangeState).low ≤ s.dec.code →
    s.dec.code < (placedAt t i s.dec.toRangeState).low + (placedAt t i s.dec.toRangeState).range →
    exec (.decode t) s = .next u →
    u.results = s.results ++ [i] ∧
    ∀ e v : State, e.cfg = s.cfg → e.enc.toRangeState = s.dec.toRangeState → exec (.encode t i) e = .next v →
      v.enc.toRangeState = u.dec.toRangeState

/-- R156: DEC_FINISH in PRIMED or CODING changes the phase to FINALIZED and nothing else; in another phase it is refused
with BadPhase. -/
def Obligations.DecFinishEndsTheSession : Prop :=
  ∀ s : State, s.dec.mark = none →
    (s.dec.phase = .primed ∨ s.dec.phase = .coding →
      exec .decFinish s = .next (s.withDec { s.dec with phase := .finalized } s.results)) ∧
    (s.dec.phase = .created ∨ s.dec.phase = .finalized → exec .decFinish s = .refused .badPhase)

/-! ### Chunks -/

/-- R82: the bytes of a chunk, read back, are the chunk, and CB bytes, read as a chunk, give those bytes back. -/
def Obligations.ChunkBytesRoundTrip : Prop :=
  (∀ (c : Config) (chunk : Nat), chunk ≤ 2 ^ c.P - 1 → bytesChunk c (chunkBytes c chunk) = chunk) ∧
  ∀ (c : Config) (bs : List Byte), bs.length = c.P / 8 →
    bytesChunk c bs ≤ 2 ^ c.P - 1 ∧ chunkBytes c (bytesChunk c bs) = bs

/-- R82, R59: byte `j` of a chunk is its `j`-th most significant byte in the big order and its `j`-th least significant
byte in the little order; with P = 8 the two orders give the same bytes. -/
def Obligations.ChunkByteOrder : Prop :=
  ∀ (c : Config) (chunk : Nat), (chunkBytes c chunk).length = c.P / 8 ∧
    (∀ j, (h : j < (chunkBytes c chunk).length) → ((chunkBytes c chunk)[j]).toNat =
      if c.order = .big then chunk / 2 ^ (8 * (c.P / 8 - 1 - j)) % 256 else chunk / 2 ^ (8 * j) % 256) ∧
    ∀ d : Config, c.P = 8 → d.P = 8 → chunkBytes c chunk = chunkBytes d chunk

/-! ### Interval narrowing and renormalization -/

/-- R112, R113: for a well-formed table NARROW discards no bit; the new interval is inside the old one; and the
intervals of two different indices of one table do not overlap. -/
def Obligations.NarrowStaysInside : Prop :=
  ∀ (c : Config) (t : Table) (r : RangeState), tableWF c t = true → r.Settled c →
    (∀ i < t.n,
      narrow c (cumAt t (t.n - 1)) (cumLo t i) (countAt t i) r =
        { low := r.low + r.range / cumAt t (t.n - 1) * cumLo t i, range := r.range / cumAt t (t.n - 1) * countAt t i } ∧
      (placedAt t i r).Placed c ∧ r.low ≤ (placedAt t i r).low ∧
      (placedAt t i r).low + (placedAt t i r).range ≤ r.low + r.range) ∧
    ∀ i j, i < j → j < t.n → (placedAt t i r).low + (placedAt t i r).range ≤ (placedAt t j r).low

/-- R115, R118 a: where loop 1's condition holds under J, `low + range < 2^N` and `range < TOP`, the top chunks of
`low` and `low + range` agree, the shift of `range` discards nothing and the shift of `low` exactly that chunk, and J
is kept. -/
def Obligations.TopCheckIteration : Prop :=
  ∀ (c : Config) (r : RangeState), r.Placed c → topAgrees c r = true →
    r.low + r.range < 2 ^ c.N ∧ r.range < c.top ∧ r.low / c.top = (r.low + r.range) / c.top ∧
    shiftBoth c r = { low := (r.low - r.low / c.top * c.top) * 2 ^ c.P, range := r.range * 2 ^ c.P } ∧
    (shiftBoth c r).Placed c

/-- R116: the clamp of loop 2 is the distance from `low` up to the next multiple of BOTTOM, or 0 where `low` is one. -/
def Obligations.ClampIsTheDistance : Prop :=
  ∀ (c : Config) (low : Nat), low < 2 ^ c.N →
    neg c.N low &&& (c.bottom - 1) = (c.bottom - low % c.bottom) % c.bottom ∧
    (c.bottom ∣ low + (neg c.N low &&& (c.bottom - 1)))

/-- R116, R118 b and c: where loop 1 has ended under J and `range < BOTTOM`, the clamp value is between 1 and `range`,
an iteration of loop 2 makes `low + range` exactly 2^N with `low >= TOP`, and J is kept; so loop 1's condition is false
again (R118 e). -/
def Obligations.UnderflowIteration : Prop :=
  ∀ (c : Config) (r : RangeState), r.Placed c → topAgrees c r = false → underflows c r = true →
    1 ≤ neg c.N r.low &&& (c.bottom - 1) ∧ neg c.N r.low &&& (c.bottom - 1) ≤ r.range ∧
    (clampShift c r).range = (neg c.N r.low &&& (c.bottom - 1)) * 2 ^ c.P ∧
    (clampShift c r).low + (clampShift c r).range = 2 ^ c.N ∧ c.top ≤ (clampShift c r).low ∧
    (clampShift c r).Placed c ∧ topAgrees c (clampShift c r) = false

/-- R114: RENORM is its two while loops run one after the other, each to its own exit: it answers a result exactly when
the loops have a run that ends there, from ANY registers and for any transfer; the iterations the model allows a loop
never cut one short. -/
def Obligations.RenormIsItsWhileLoops : Prop :=
  ∀ (α : Type) (c : Config) (xfer : RangeState → α → Except Stop α) (r r' : RangeState) (a a' : α),
    renorm c xfer r a = .ok (r', a') ↔ ∃ k1 k2, RenormRuns c xfer r a k1 k2 r' a'

/-- R119: under J both loops end, loop 1 after at most NCHUNK - 1 and loop 2 after at most NCHUNK - 2 iterations, for
the encoder always; the same bounds hold of every run of the loops that ends. -/
def Obligations.RenormTerminates : Prop :=
  (∀ (c : Config) (r : RangeState) (out : List Byte), r.Placed c →
    ∃ k1 k2 r' out', RenormRuns c (emitXfer c) r out k1 k2 r' out' ∧ renorm c (emitXfer c) r out = .ok (r', out')) ∧
  ∀ (α : Type) (c : Config) (xfer : RangeState → α → Except Stop α) (r r' : RangeState) (a a' : α) (k1 k2 : Nat),
    RenormRuns c xfer r a k1 k2 r' a' → k1 ≤ c.nchunk - 1 ∧ k2 ≤ c.nchunk - 2

/-- R119: with `range == 0` loop 1 never ends. That RENORM answers the fault renormNeverEnds there is the model's own
(DEDUCED, log 9). -/
def Obligations.RangeZeroNeverEnds : Prop :=
  ∀ (c : Config) (low : Nat) (out : List Byte), low < 2 ^ c.N →
    renorm c (emitXfer c) { low := low, range := 0 } out = .error (.fault .renormNeverEnds) ∧
    ¬ ∃ k r' out', LoopRuns (topAgrees c) (shiftBoth c) (emitXfer c) { low := low, range := 0 } out k r' out'

/-- R117, R118 e and f: after RENORM under J neither loop's condition holds, so RENORM again does nothing; and if loop
2 ran at all, `low + range == 2^N`. -/
def Obligations.RenormReachesAFixedPoint : Prop :=
  ∀ (α : Type) (c : Config) (xfer : RangeState → α → Except Stop α) (r r' : RangeState) (a a' : α) (k1 k2 : Nat),
    r.Placed c → RenormRuns c xfer r a k1 k2 r' a' →
    c.top ≤ r'.low ^^^ ((r'.low + r'.range) % 2 ^ c.N) ∧ c.bottom ≤ r'.range ∧ r'.Settled c ∧
    renorm c xfer r' a' = .ok (r', a') ∧ (0 < k2 → r'.low + r'.range = 2 ^ c.N)

/-- R120: each iteration transfers exactly one chunk, so EMIT lengthens `out` and CONSUME advances `rpos` by CB bytes an
iteration, and from the same registers both make the same iterations and end on the same registers. -/
def Obligations.OneTransferPerIteration : Prop :=
  ∀ (c : Config) (r r1 r2 : RangeState) (out out' inp : List Byte) (w w' : Window) (k1 k2 j1 j2 : Nat),
    RenormRuns c (emitXfer c) r out k1 k2 r1 out' → RenormRuns c (consumeXfer c inp) r w j1 j2 r2 w' →
    out'.length = out.length + (k1 + k2) * c.cb ∧ w'.rpos = w.rpos + (j1 + j2) * c.cb ∧
    k1 = j1 ∧ k2 = j2 ∧ r1 = r2

/-- R224: in the default configuration an ENCODE appends at most 13 bytes. -/
def Obligations.DefaultEncodeAppendsAtMost13Bytes : Prop :=
  ∀ (s u : State) (t : Table) (index : Nat), s.cfg.N = 64 → s.cfg.P = 8 → exec (.encode t index) s = .next u →
    u.out.length ≤ s.out.length + 13

/-- R132, the single-symbol table: with `low = 0` and the multiple of W that `range` is cut to at least TOP, ENCODE
drops the remainder of `range`, leaves `low` unchanged and emits nothing. -/
def Obligations.SingleSymbolEmitsNothing : Prop :=
  ∀ (s : State) (weight : Nat), s.enc.mark = none → s.enc.phase = .primed ∨ s.enc.phase = .coding → s.enc.low = 0 →
    s.enc.range < 2 ^ s.cfg.N → 1 ≤ weight → weight ≤ s.cfg.bottom →
    s.cfg.top ≤ s.enc.range / weight * weight →
    exec (.encode ⟨1, [weight], [weight]⟩ 0) s =
      .next (s.withEnc { s.enc with range := s.enc.range - s.enc.range % weight, phase := .coding } s.out)

/-! ### Interval search -/

/-- R172: for a `count_cum` that never decreases, if the total is above the target then SEARCH returns the smallest
index whose sum is above the target, which is the one `i` with `cum_lo(i) <= target < count_cum[i]`. -/
def Obligations.SearchFindsTheSmallestIndex : Prop :=
  ∀ (countCum : List Nat) (target : Nat), (∀ i j, i ≤ j → j < countCum.length → countCum.getD i 0 ≤ countCum.getD j 0) →
    countCum ≠ [] → target < countCum.getD (countCum.length - 1) 0 →
    ∃ i, search countCum.length countCum target = .ok i ∧ i < countCum.length ∧ target < countCum.getD i 0 ∧
      (∀ j < i, countCum.getD j 0 ≤ target) ∧
      ∀ j < countCum.length, (0 < j → countCum.getD (j - 1) 0 ≤ target) → target < countCum.getD j 0 → j = i

/-- R173: for any `count_cum` SEARCH ends and returns an index of the array; where the sums never decrease and the
total is at most the target, it is the last. -/
def Obligations.SearchStaysInTheTable : Prop :=
  ∀ (countCum : List Nat) (target : Nat), countCum ≠ [] →
    ∃ i, search countCum.length countCum target = .ok i ∧ i < countCum.length ∧
      ((∀ j k, j ≤ k → k < countCum.length → countCum.getD j 0 ≤ countCum.getD k 0) →
        countCum.getD (countCum.length - 1) 0 ≤ target → i = countCum.length - 1)

/-- R58: a well-formed table has a strictly increasing `count_cum`, and `n <= count_cum[n-1]`. -/
def Obligations.WellFormedSumsIncrease : Prop :=
  ∀ (c : Config) (t : Table), tableWF c t = true →
    (∀ i j, i < j → j < t.n → cumAt t i < cumAt t j) ∧ t.n ≤ cumAt t (t.n - 1)

/-! ### Frames and whole-machine rules -/

/-- R28: a command that answers a next state has made the transition R28 lists for it; a command in a phase for which
R28 lists none is refused with BadPhase; RESET takes any phase to CREATED. -/
def Obligations.PhaseTransitions : Prop :=
  ∀ (i : Instr) (s : State),
    (∀ t, exec i s = .next t → transition i (phaseOf (unitOf i) s) = some (phaseOf (unitOf i) t)) ∧
    (markOf (unitOf i) s = none → transition i (phaseOf (unitOf i) s) = none → exec i s = .refused .badPhase) ∧
    (s.pending.head? = some .reset → ∃ t, step s = .next t ∧ t.enc.phase = .created ∧ t.dec.phase = .created)

/-- R25, the encoder's commands: what each leaves unchanged. None touches DEC, the input, the returned indices, the
configuration, the host's moves or a mark; ENC_START writes only the phase; ENC_FINISH leaves `range`; what was in
`out` stays there. -/
def Obligations.EncoderCommandsFrame : Prop :=
  ∀ (s t : State) (tab : Table) (index : Nat),
    (exec .encStart s = .next t → t.enc.toRangeState = s.enc.toRangeState ∧ t.out = s.out) ∧
    (exec .encFinish s = .next t → t.enc.range = s.enc.range) ∧
    (exec .encStart s = .next t ∨ exec (.encode tab index) s = .next t ∨ exec .encFinish s = .next t →
      t.dec = s.dec ∧ t.inp = s.inp ∧ t.results = s.results ∧ t.cfg = s.cfg ∧ t.pending = s.pending ∧
      t.enc.mark = s.enc.mark ∧ s.out <+: t.out)

/-- R25, the decoder's commands: what each leaves unchanged. None touches ENC, `out`, the input, the configuration, the
host's moves or a mark; DEC_START leaves `low` and `range`; DEC_FINISH writes only the phase; only DECODE returns an
index, exactly one. -/
def Obligations.DecoderCommandsFrame : Prop :=
  ∀ (s t : State) (tab : Table),
    (exec .decStart s = .next t → t.dec.toRangeState = s.dec.toRangeState ∧ t.results = s.results) ∧
    (exec .decFinish s = .next t → t.dec.toRangeState = s.dec.toRangeState ∧ t.dec.toWindow = s.dec.toWindow ∧
      t.results = s.results) ∧
    (exec (.decode tab) s = .next t → ∃ i < tab.n, t.results = s.results ++ [i]) ∧
    (exec .decStart s = .next t ∨ exec (.decode tab) s = .next t ∨ exec .decFinish s = .next t →
      t.enc = s.enc ∧ t.out = s.out ∧ t.inp = s.inp ∧ t.cfg = s.cfg ∧ t.pending = s.pending ∧
      t.dec.mark = s.dec.mark)

/-- R137, R20, R53: a command of ENC is a function of ENC's state, the configuration and the operands, and of nothing else,
the bytes sent before included: two states that agree on these end in the same ENC with the same bytes appended to each
`out` and nothing else changed, or stop for the same reason. -/
def Obligations.EncoderDependsOnlyOnItself : Prop :=
  ∀ (i : Instr) (s t : State), unitOf i = .enc → s.cfg = t.cfg → s.enc = t.enc →
    (∃ e bs, exec i s = .next (s.withEnc e (s.out ++ bs)) ∧ exec i t = .next (t.withEnc e (t.out ++ bs))) ∨
    (∃ r, exec i s = .refused r ∧ exec i t = .refused r) ∨
    ∃ f, exec i s = .fault f ∧ exec i t = .fault f

/-- R20, R193 for DEC: a command of DEC is a function of DEC's state, the configuration, the input and the operands, and of
nothing else, the indices returned before included: two states that agree on these end in the same DEC with the same
indices returned by the command and nothing else changed, or stop for the same reason. -/
def Obligations.DecoderDependsOnlyOnItself : Prop :=
  ∀ (i : Instr) (s t : State), unitOf i = .dec → s.cfg = t.cfg → s.dec = t.dec → s.inp = t.inp →
    (∃ d is, exec i s = .next (s.withDec d (s.results ++ is)) ∧ exec i t = .next (t.withDec d (t.results ++ is))) ∨
    (∃ r, exec i s = .refused r ∧ exec i t = .refused r) ∨
    ∃ f, exec i s = .fault f ∧ exec i t = .fault f

/-- R193: the steps of the two units commute: a command of ENC and a command of DEC, both completing, lead to the same
state in either order. -/
def Obligations.UnitsCommute : Prop :=
  ∀ (i j : Instr) (s a b : State), unitOf i = .enc → unitOf j = .dec → exec i s = .next a → exec j s = .next b →
    ∃ t, exec j a = .next t ∧ exec i b = .next t

/-- R33, R218: only RESET takes bytes out of `out`: any other move that answers a next state leaves what was sent, in
order, and can only append. -/
def Obligations.OutOnlyGrows : Prop :=
  ∀ s t : State, step s = .next t → s.pending.head? ≠ some .reset → s.pending.head? ≠ some .resetEnc → s.out <+: t.out

/-- R33, R218: between DEC_START and DEC_FINISH no move changes the input. -/
def Obligations.InputIsConstantInASession : Prop :=
  ∀ s t : State, s.dec.phase = .primed ∨ s.dec.phase = .coding → step s = .next t → t.inp = s.inp

/-- R55: LINK after a finalized, unmarked encoder session and outside a decoder session makes the input the complete
`out`, and changes nothing else; R33, R215: binding an input source outside a decoder session makes it the input, and
changes nothing else. Before the encoder session is finalized, or while ENC bears a mark, LINK is no move of the host, and
while DEC is between DEC_START and DEC_FINISH neither is. These refusals, and that a mark of DEC is not looked at, are the
model's own (DESIGN CHOICE, log 7). -/
def Obligations.LinkCarriesTheOutput : Prop :=
  ∀ (s : State) (rest : List HostMove),
    (s.pending = .link :: rest →
      (s.enc.phase = .finalized → s.enc.mark = none → s.dec.phase ≠ .primed → s.dec.phase ≠ .coding →
        step s = .next ((s.withPending rest).withInp s.out)) ∧
      (s.enc.phase ≠ .finalized ∨ s.enc.mark ≠ none ∨ s.dec.phase = .primed ∨ s.dec.phase = .coding →
        step s = .refused .noSuchHostMove)) ∧
    ∀ bytes : List Byte, s.pending = .bind bytes :: rest →
      (s.dec.phase ≠ .primed → s.dec.phase ≠ .coding → step s = .next ((s.withPending rest).withInp bytes)) ∧
      (s.dec.phase = .primed ∨ s.dec.phase = .coding → step s = .refused .noSuchHostMove)

/-- R184: no step but a RESET of the unit clears its refusal mark. That a marked unit refuses every further command, with
the reason its mark bears, is the model's own (DESIGN CHOICE, log 8; the spec makes no claim of a later command). -/
def Obligations.MarkIsSticky : Prop :=
  (∀ (i : Instr) (s : State) (r : Refusal), markOf (unitOf i) s = some r → exec i s = .refused r) ∧
  ∀ (s t : State) (u : UnitName) (r : Refusal), markOf u s = some r → step s = .next t →
    s.pending.head? ≠ some .reset → s.pending.head? ≠ some (if u = .enc then .resetEnc else .resetDec) →
    markOf u t = some r

/-- R184, R20: after a refused command the unit is marked, and the other unit, the configuration and the input are as they
were. That the mark holds the reason, and that the state looked at is the one `advance` gives, is the model's own (DESIGN
CHOICE, log 8). -/
def Obligations.RefusalMarksItsUnitOnly : Prop :=
  ∀ (s : State) (i : Instr) (rest : List HostMove) (r : Refusal), s.pending = presents i :: rest →
    step s = .refused r → markOf (unitOf i) s = none →
    markOf (unitOf i) (advance s) = some r ∧ (advance s).cfg = s.cfg ∧ (advance s).inp = s.inp ∧
    (advance s).pending = rest ∧
    (unitOf i = .enc → (advance s).dec = s.dec ∧ (advance s).results = s.results) ∧
    (unitOf i = .dec → (advance s).enc = s.enc ∧ (advance s).out = s.out)

/-! ### The guarantee -/

/-- R155, R19, R159, R84: from ANY state, in any configuration, for any sequence of well-formed tables and indices:
RESET, an encoder session, LINK and the matching decoder session complete, the decoder returns exactly the encoded
indices, in order, it has then consumed the whole stream, and both units have ended. That `results` holds these indices
and no older ones rests on RESET emptying it, which is the model's own (DESIGN CHOICE, log 5). -/
def Obligations.RoundTrip : Prop :=
  ∀ (s : State) (xs : List (Table × Nat)) (rest : List HostMove), (∀ x ∈ xs, Codable s.cfg x) →
    ∃ t, runSteps ((matchingSessions xs).length + 1) (s.withPending (.reset :: (matchingSessions xs ++ rest))) = .next t ∧
      t.results = xs.map (fun x => x.2) ∧ t.inp = t.out ∧ t.dec.rpos = t.inp.length ∧
      ended t.enc.phase t.enc.mark ∧ ended t.dec.phase t.dec.mark ∧ t.cfg = s.cfg ∧ t.pending = rest

/-- R35: in matching sessions, before and after every DECODE, DEC's `low` and `range` are those ENC had at the same point
of the encoder session, and `0 <= code - low < range`. The point is after the symbols `xs`, with `ys` still to come: `e`
is the state in the encoder session, `d` the one in the decoder session. That `results` holds the indices of `xs` and no
older ones rests on RESET emptying it, which is the model's own (DESIGN CHOICE, log 5). -/
def Obligations.MatchingSessionsGoInStep : Prop :=
  ∀ (s : State) (xs ys : List (Table × Nat)), (∀ x ∈ xs ++ ys, Codable s.cfg x) →
    ∃ e d,
      runSteps (2 + xs.length) (s.withPending (.reset :: matchingSessions (xs ++ ys))) = .next e ∧
      runSteps ((encSession (xs ++ ys)).length + 3 + xs.length)
        (s.withPending (.reset :: matchingSessions (xs ++ ys))) = .next d ∧
      d.dec.toRangeState = e.enc.toRangeState ∧ d.dec.low ≤ d.dec.code ∧ d.dec.code - d.dec.low < d.dec.range ∧
      d.results = xs.map (fun x => x.2)
end

