-- ==== Sys2Proof/Laws/Arith.lean ====
section
/-!
SUPPORT. Arithmetic the procedures rest on: what a legal configuration gives (N is NCHUNK chunks, a chunk is CB
bytes, TOP and BOTTOM are the next powers down), and the bit operations of RENORM as division and remainder.
-/

namespace Sys2Proof

namespace Config

variable (c : Config)

theorem legal_iff : c.P % 8 = 0 ∧ 8 ≤ c.P ∧ c.N % c.P = 0 ∧ 2 * c.P < c.N := by
  have h := c.ok
  simp only [legal, Bool.and_eq_true, beq_iff_eq, decide_eq_true_eq] at h
  obtain ⟨⟨⟨⟨h1, h2⟩, h3⟩, h4⟩, -⟩ := h
  exact ⟨h1, h2, h3, h4⟩

theorem P_ge : 8 ≤ c.P := c.legal_iff.2.1

theorem two_P_lt : 2 * c.P < c.N := c.legal_iff.2.2.2

/-- A chunk is CB bytes (R9). -/
theorem P_eq : c.P = 8 * c.cb := by
  have := c.legal_iff.1
  simp only [cb]; omega

/-- A register is NCHUNK chunks (R9, D6). -/
theorem N_eq : c.N = c.nchunk * c.P := by
  have := Nat.div_add_mod c.N c.P
  rw [c.legal_iff.2.2.1] at this
  simp only [nchunk]; rw [Nat.mul_comm]; omega

theorem cb_pos : 0 < c.cb := by have := c.P_eq; have := c.P_ge; omega

theorem nchunk_ge : 3 ≤ c.nchunk := by
  have h := c.two_P_lt
  rw [c.N_eq] at h
  exact Nat.lt_of_mul_lt_mul_right h

/-- The bytes of a register are the bytes of its chunks: N/8 = NCHUNK * CB (R84). -/
theorem N_div_eight : c.N / 8 = c.nchunk * c.cb := by
  have h := c.N_eq
  rw [c.P_eq] at h
  rw [h, show c.nchunk * (8 * c.cb) = c.nchunk * c.cb * 8 by ring]
  simp

theorem two_pow_N : 2 ^ c.N = c.top * 2 ^ c.P := by
  have := c.two_P_lt
  rw [top, ← pow_add]; congr 1; omega

theorem top_eq : c.top = c.bottom * 2 ^ c.P := by
  have := c.two_P_lt
  rw [top, bottom, ← pow_add]; congr 1; omega

theorem bottom_pos : 0 < c.bottom := Nat.two_pow_pos _

theorem top_pos : 0 < c.top := Nat.two_pow_pos _

theorem two_pow_P_ge : 256 ≤ 2 ^ c.P := by
  have := Nat.pow_le_pow_right (n := 2) (by omega) c.P_ge
  omega

theorem two_bottom_le_top : 256 * c.bottom ≤ c.top := by
  rw [c.top_eq, Nat.mul_comm]
  exact Nat.mul_le_mul_left _ c.two_pow_P_ge

theorem two_top_le : 256 * c.top ≤ 2 ^ c.N := by
  rw [c.two_pow_N, Nat.mul_comm]
  exact Nat.mul_le_mul_left _ c.two_pow_P_ge

theorem mask_eq : c.mask + 1 = 2 ^ c.N := Nat.sub_add_cancel (Nat.two_pow_pos _)

theorem two_pow_P_pow (m : Nat) : (2 ^ c.P) ^ m = 2 ^ (m * c.P) := by
  rw [← pow_mul, Nat.mul_comm]

theorem top_eq_pow : c.top = (2 ^ c.P) ^ (c.nchunk - 1) := by
  rw [two_pow_P_pow, top, c.N_eq, Nat.sub_mul, Nat.one_mul]

theorem bottom_eq_pow : c.bottom = (2 ^ c.P) ^ (c.nchunk - 2) := by
  rw [two_pow_P_pow, bottom, c.N_eq, Nat.sub_mul]

end Config

/-! ### Bit operations as arithmetic -/

theorem wrap_of_lt {N v : Nat} (h : v < 2 ^ N) : wrap N v = v := Nat.mod_eq_of_lt h

theorem wrap_lt (N v : Nat) : wrap N v < 2 ^ N := Nat.mod_lt _ (Nat.two_pow_pos _)

theorem wrap_two_pow (N : Nat) : wrap N (2 ^ N) = 0 := Nat.mod_self _

/-- The XOR of two values is below `2^k` exactly when they agree above bit `k` (R115). -/
theorem xor_lt_two_pow_iff (a b k : Nat) : a ^^^ b < 2 ^ k ↔ a / 2 ^ k = b / 2 ^ k := by
  rw [← Nat.div_eq_zero_iff_lt (Nat.two_pow_pos k), ← Nat.shiftRight_eq_div_pow,
    Nat.shiftRight_xor_distrib, Nat.xor_eq_zero_iff, Nat.shiftRight_eq_div_pow, Nat.shiftRight_eq_div_pow]

/-- The clamp of loop 2 in arithmetic (R116): the distance from `low` up to the next multiple of BOTTOM, or 0. -/
theorem neg_and_bottom (c : Config) (low : Nat) :
    neg c.N low &&& (c.bottom - 1) = (c.bottom - low % c.bottom) % c.bottom := by
  have hN : 2 ^ c.N = c.bottom * 2 ^ (2 * c.P) := by
    have := c.two_P_lt
    rw [Config.bottom, ← pow_add]; congr 1; omega
  have hb := c.bottom_pos
  rw [Config.bottom, Nat.and_two_pow_sub_one_eq_mod, ← Config.bottom, neg, wrap, hN]
  have hlt : low % (c.bottom * 2 ^ (2 * c.P)) < c.bottom * 2 ^ (2 * c.P) :=
    Nat.mod_lt _ (Nat.mul_pos hb (Nat.two_pow_pos _))
  rw [Nat.mod_mul_right_mod]
  have hmod : low % (c.bottom * 2 ^ (2 * c.P)) % c.bottom = low % c.bottom := Nat.mod_mul_right_mod _ _ _
  generalize low % (c.bottom * 2 ^ (2 * c.P)) = v at hlt hmod
  rw [← hmod]
  have hdiv := Nat.div_add_mod v c.bottom
  have hq : v / c.bottom < 2 ^ (2 * c.P) := Nat.div_lt_of_lt_mul hlt
  obtain ⟨q, hq'⟩ : ∃ q, 2 ^ (2 * c.P) = v / c.bottom + 1 + q := ⟨_, (Nat.add_sub_cancel' hq).symm⟩
  have hr := Nat.mod_lt v hb
  have : c.bottom * 2 ^ (2 * c.P) - v = c.bottom - v % c.bottom + c.bottom * q := by
    rw [hq', Nat.mul_add, Nat.mul_add, Nat.mul_one]; omega
  rw [this, Nat.add_mul_mod_self_left]

end Sys2Proof
end

