-- ==== Sys2Proof/Laws/State.lean ====
section
/-!
SUPPORT. The small lemmas of the state: one per field and update, all true by rfl, so that no later proof unfolds a
record update; and those of RESET and of marking, which are such updates.
-/

namespace Sys2Proof.Machine

namespace State

variable (s : State) (e : Enc) (d : Dec) (bs : List Byte) (is : List Nat) (ms : List HostMove)

@[simp] theorem withEnc_cfg : (s.withEnc e bs).cfg = s.cfg := rfl
@[simp] theorem withEnc_enc : (s.withEnc e bs).enc = e := rfl
@[simp] theorem withEnc_out : (s.withEnc e bs).out = bs := rfl
@[simp] theorem withEnc_dec : (s.withEnc e bs).dec = s.dec := rfl
@[simp] theorem withEnc_inp : (s.withEnc e bs).inp = s.inp := rfl
@[simp] theorem withEnc_results : (s.withEnc e bs).results = s.results := rfl
@[simp] theorem withEnc_pending : (s.withEnc e bs).pending = s.pending := rfl

@[simp] theorem withDec_cfg : (s.withDec d is).cfg = s.cfg := rfl
@[simp] theorem withDec_enc : (s.withDec d is).enc = s.enc := rfl
@[simp] theorem withDec_out : (s.withDec d is).out = s.out := rfl
@[simp] theorem withDec_dec : (s.withDec d is).dec = d := rfl
@[simp] theorem withDec_inp : (s.withDec d is).inp = s.inp := rfl
@[simp] theorem withDec_results : (s.withDec d is).results = is := rfl
@[simp] theorem withDec_pending : (s.withDec d is).pending = s.pending := rfl

@[simp] theorem withInp_cfg : (s.withInp bs).cfg = s.cfg := rfl
@[simp] theorem withInp_enc : (s.withInp bs).enc = s.enc := rfl
@[simp] theorem withInp_out : (s.withInp bs).out = s.out := rfl
@[simp] theorem withInp_dec : (s.withInp bs).dec = s.dec := rfl
@[simp] theorem withInp_inp : (s.withInp bs).inp = bs := rfl
@[simp] theorem withInp_results : (s.withInp bs).results = s.results := rfl
@[simp] theorem withInp_pending : (s.withInp bs).pending = s.pending := rfl

@[simp] theorem withPending_cfg : (s.withPending ms).cfg = s.cfg := rfl
@[simp] theorem withPending_enc : (s.withPending ms).enc = s.enc := rfl
@[simp] theorem withPending_out : (s.withPending ms).out = s.out := rfl
@[simp] theorem withPending_dec : (s.withPending ms).dec = s.dec := rfl
@[simp] theorem withPending_inp : (s.withPending ms).inp = s.inp := rfl
@[simp] theorem withPending_results : (s.withPending ms).results = s.results := rfl
@[simp] theorem withPending_pending : (s.withPending ms).pending = ms := rfl

end State

variable (s : State)

@[simp] theorem resetEnc_cfg : (resetEnc s).cfg = s.cfg := rfl
@[simp] theorem resetEnc_enc : (resetEnc s).enc = Enc.fresh s.cfg := rfl
@[simp] theorem resetEnc_out : (resetEnc s).out = [] := rfl
@[simp] theorem resetEnc_dec : (resetEnc s).dec = s.dec := rfl
@[simp] theorem resetEnc_inp : (resetEnc s).inp = s.inp := rfl
@[simp] theorem resetEnc_results : (resetEnc s).results = s.results := rfl
@[simp] theorem resetEnc_pending : (resetEnc s).pending = s.pending := rfl

@[simp] theorem resetDec_cfg : (resetDec s).cfg = s.cfg := rfl
@[simp] theorem resetDec_enc : (resetDec s).enc = s.enc := rfl
@[simp] theorem resetDec_out : (resetDec s).out = s.out := rfl
@[simp] theorem resetDec_dec : (resetDec s).dec = Dec.fresh s.cfg := rfl
@[simp] theorem resetDec_inp : (resetDec s).inp = s.inp := rfl
@[simp] theorem resetDec_results : (resetDec s).results = [] := rfl
@[simp] theorem resetDec_pending : (resetDec s).pending = s.pending := rfl

/-- RESET of the block is the fresh state with the host's side kept (R210, R211). -/
theorem resetBlock_eq_fresh : resetBlock s = State.fresh s.cfg s.inp s.pending := rfl

theorem withEnc_withDec_comm (e : Enc) (d : Dec) (bs : List Byte) (is : List Nat) :
    (s.withEnc e bs).withDec d is = (s.withDec d is).withEnc e bs := rfl

theorem withEnc_self : s.withEnc s.enc s.out = s := rfl

theorem withDec_self : s.withDec s.dec s.results = s := rfl

/-! ### What a refusal leaves (R184) -/

@[simp] theorem markUnit_enc_cfg (r : Refusal) : (markUnit .enc r s).cfg = s.cfg := rfl
@[simp] theorem markUnit_enc_dec (r : Refusal) : (markUnit .enc r s).dec = s.dec := rfl
@[simp] theorem markUnit_enc_inp (r : Refusal) : (markUnit .enc r s).inp = s.inp := rfl
@[simp] theorem markUnit_enc_results (r : Refusal) : (markUnit .enc r s).results = s.results := rfl
@[simp] theorem markUnit_enc_pending (r : Refusal) : (markUnit .enc r s).pending = s.pending := rfl
@[simp] theorem markUnit_enc_mark (r : Refusal) : (markUnit .enc r s).enc.mark = some (s.enc.mark.getD r) := rfl
@[simp] theorem unclaimUnit_enc_cfg : (unclaimUnit .enc s).cfg = s.cfg := rfl
@[simp] theorem unclaimUnit_enc_dec : (unclaimUnit .enc s).dec = s.dec := rfl
@[simp] theorem unclaimUnit_enc_inp : (unclaimUnit .enc s).inp = s.inp := rfl
@[simp] theorem unclaimUnit_enc_results : (unclaimUnit .enc s).results = s.results := rfl
@[simp] theorem unclaimUnit_enc_pending : (unclaimUnit .enc s).pending = s.pending := rfl
@[simp] theorem unclaimUnit_enc_mark : (unclaimUnit .enc s).enc.mark = s.enc.mark := rfl

@[simp] theorem markUnit_dec_cfg (r : Refusal) : (markUnit .dec r s).cfg = s.cfg := rfl
@[simp] theorem markUnit_dec_enc (r : Refusal) : (markUnit .dec r s).enc = s.enc := rfl
@[simp] theorem markUnit_dec_out (r : Refusal) : (markUnit .dec r s).out = s.out := rfl
@[simp] theorem markUnit_dec_inp (r : Refusal) : (markUnit .dec r s).inp = s.inp := rfl
@[simp] theorem markUnit_dec_pending (r : Refusal) : (markUnit .dec r s).pending = s.pending := rfl
@[simp] theorem markUnit_dec_mark (r : Refusal) : (markUnit .dec r s).dec.mark = some (s.dec.mark.getD r) := rfl
@[simp] theorem unclaimUnit_dec_cfg : (unclaimUnit .dec s).cfg = s.cfg := rfl
@[simp] theorem unclaimUnit_dec_enc : (unclaimUnit .dec s).enc = s.enc := rfl
@[simp] theorem unclaimUnit_dec_out : (unclaimUnit .dec s).out = s.out := rfl
@[simp] theorem unclaimUnit_dec_inp : (unclaimUnit .dec s).inp = s.inp := rfl
@[simp] theorem unclaimUnit_dec_pending : (unclaimUnit .dec s).pending = s.pending := rfl
@[simp] theorem unclaimUnit_dec_mark : (unclaimUnit .dec s).dec.mark = s.dec.mark := rfl

/-! ### The host's acts on the streams -/

theorem bindInput_eq_next {bs : List Byte} {t : State} :
    bindInput bs s = .next t ↔ s.dec.phase.mayCode = false ∧ t = s.withInp bs := by
  unfold bindInput
  cases s.dec.phase.mayCode <;> simp [eq_comm]

theorem linkStreams_eq_next {t : State} :
    linkStreams s = .next t ↔
      s.enc.phase = .finalized ∧ s.enc.mark = none ∧ s.dec.phase.mayCode = false ∧ t = s.withInp s.out := by
  unfold linkStreams
  rw [← bindInput_eq_next]
  cases h : s.enc.phase <;> cases h2 : s.enc.mark <;> simp

end Sys2Proof.Machine
end

