-- ==== Sys2Proof/Laws/Operands.lean ====
section
/-!
SUPPORT. What the operand forms and the guards give: a command's answer from its datapath, table reads of a
well-formed table, the increasing sums of such a table, chunks as bytes and back, reading the input.
-/

namespace Sys2Proof.Machine

/-! ### Answers and guards -/

theorem finish_eq_next {x : Except Stop State} {t : State} : finish x = .next t ↔ x = .ok t := by
  cases x with
  | ok s => simp [finish]
  | error e => cases e <;> simp [finish]

theorem finish_eq_refused {x : Except Stop State} {r : Refusal} :
    finish x = .refused r ↔ x = .error (.refuse r) := by
  cases x with
  | ok s => simp [finish]
  | error e => cases e <;> simp [finish]

theorem finish_eq_fault {x : Except Stop State} {f : Fault} : finish x = .fault f ↔ x = .error (.fault f) := by
  cases x with
  | ok s => simp [finish]
  | error e => cases e <;> simp [finish]

@[simp] theorem ok_bind {ε α β : Type} (a : α) (f : α → Except ε β) : (Except.ok a >>= f) = f a := rfl

@[simp] theorem error_bind {ε α β : Type} (e : ε) (f : α → Except ε β) :
    ((Except.error e : Except ε α) >>= f) = .error e := rfl

theorem bind_eq_ok {ε α β : Type} {x : Except ε α} {f : α → Except ε β} {b : β} :
    x.bind f = .ok b ↔ ∃ a, x = .ok a ∧ f a = .ok b := by
  cases x <;> simp [Except.bind]

theorem bind_eq_error {ε α β : Type} {x : Except ε α} {f : α → Except ε β} {e : ε} :
    x.bind f = .error e ↔ x = .error e ∨ ∃ a, x = .ok a ∧ f a = .error e := by
  cases x <;> simp [Except.bind]

@[simp] theorem require_true (r : Refusal) : require true r = .ok () := rfl

@[simp] theorem require_false (r : Refusal) : require false r = .error (.refuse r) := rfl

@[simp] theorem unmarked_none : unmarked none = .ok () := rfl

@[simp] theorem unmarked_some (r : Refusal) : unmarked (some r) = .error (.refuse r) := rfl

/-! ### Tables -/

/-- The clauses of R58. -/
theorem tableWF_iff {c : Config} {t : Table} :
    tableWF c t = true ↔ t.count.length = t.n ∧ t.countCum.length = t.n ∧ 1 ≤ t.n ∧ (∀ i < t.n, 1 ≤ countAt t i)
      ∧ cumAt t 0 = countAt t 0 ∧ (∀ i < t.n, 1 ≤ i → cumAt t i = cumAt t (i - 1) + countAt t i)
      ∧ cumAt t (t.n - 1) ≤ c.bottom := by
  simp [tableWF, arraysOfLength, and_assoc]

theorem tabRead_countCum {t : Table} (h : t.countCum.length = t.n) {i : Nat} (hi : i < t.n) :
    tabRead t.countCum i = .ok (cumAt t i) := by
  simp [tabRead, cumAt, List.getD, h, hi]

theorem readCount_eq {t : Table} (h : t.count.length = t.n) {i : Nat} (hi : i < t.n) :
    readCount t i = .ok (countAt t i) := by
  simp [readCount, tabRead, countAt, List.getD, h, hi]

theorem readTotal_eq {t : Table} (h : t.countCum.length = t.n) (hn : 1 ≤ t.n) :
    readTotal t = .ok (cumAt t (t.n - 1)) := tabRead_countCum h (by omega)

theorem readCumLo_eq {t : Table} (h : t.countCum.length = t.n) {i : Nat} (hi : i < t.n) :
    readCumLo t i = .ok (cumLo t i) := by
  unfold readCumLo cumLo
  split
  · exact tabRead_countCum h (by omega)
  · rfl

section WellFormedTable

variable {c : Config} {t : Table} (h : tableWF c t = true)
include h

/-- The interval of symbol `i` is `[cum_lo(i), count_cum[i])` (R113). -/
theorem cumLo_add_countAt {i : Nat} (hi : i < t.n) : cumLo t i + countAt t i = cumAt t i := by
  obtain ⟨-, -, -, -, h0, hs, -⟩ := tableWF_iff.1 h
  unfold cumLo
  split
  · rw [← hs i hi (by omega)]
  · obtain rfl : i = 0 := by omega
    omega

/-- The sums never decrease (R51, R58). -/
theorem cumAt_mono {i j : Nat} (hij : i ≤ j) (hj : j < t.n) : cumAt t i ≤ cumAt t j := by
  obtain ⟨-, -, -, -, -, hs, -⟩ := tableWF_iff.1 h
  induction j with
  | zero => obtain rfl : i = 0 := by omega
            exact le_rfl
  | succ j ih =>
    rcases Nat.eq_or_lt_of_le hij with rfl | hlt
    · exact le_rfl
    · have := ih (by omega) (by omega)
      have := hs (j + 1) hj (by omega)
      simp only [Nat.add_sub_cancel] at this
      omega

theorem cumAt_le_total {i : Nat} (hi : i < t.n) : cumAt t i ≤ cumAt t (t.n - 1) :=
  cumAt_mono h (by omega) (by omega)

theorem countAt_pos {i : Nat} (hi : i < t.n) : 1 ≤ countAt t i := (tableWF_iff.1 h).2.2.2.1 i hi

/-- `1 <= total <= BOTTOM` (R111). -/
theorem total_bounds : 1 ≤ cumAt t (t.n - 1) ∧ cumAt t (t.n - 1) ≤ c.bottom := by
  obtain ⟨-, -, hn, hp, h0, -, hb⟩ := tableWF_iff.1 h
  have := cumAt_mono h (Nat.zero_le (t.n - 1)) (by omega)
  have := hp 0 (by omega)
  omega

end WellFormedTable

/-! ### Chunks and bytes -/

theorem joinBytes_append (bs : List Byte) (b : Byte) : joinBytes (bs ++ [b]) = 256 * joinBytes bs + b.toNat := by
  simp [joinBytes]

theorem byteAt_toNat (v lo : Nat) : (byteAt v lo).toNat = v / 2 ^ lo % 256 := by
  have h8 : lo + 7 - lo + 1 = 8 := by omega
  rw [byteAt, BitVec.toNat_ofNat, slice, Nat.shiftRight_eq_div_pow, h8, Nat.mod_mod, show (2 : Nat) ^ 8 = 256 by norm_num]

/-- The bytes of a value from its most significant byte down, joined again, are its low `8 m` bits. -/
theorem joinBytes_bytesDown (m v : Nat) :
    joinBytes ((List.range m).map fun j => byteAt v (8 * (m - 1 - j))) = v % 256 ^ m := by
  induction m generalizing v with
  | zero => simp [joinBytes, Nat.mod_one]
  | succ m ih =>
    have hrest : (List.range m).map (fun j => byteAt v (8 * (m + 1 - 1 - j)))
        = (List.range m).map (fun j => byteAt (v / 256) (8 * (m - 1 - j))) := by
      refine List.map_congr_left fun j hj => BitVec.eq_of_toNat_eq ?_
      have hj := List.mem_range.1 hj
      rw [byteAt_toNat, byteAt_toNat, Nat.div_div_eq_div_mul, show (256 : Nat) = 2 ^ 8 by norm_num, ← pow_add]
      congr 3
      omega
    rw [List.range_succ, List.map_append, List.map_singleton, joinBytes_append, hrest, ih, byteAt_toNat]
    have : m + 1 - 1 - m = 0 := by omega
    rw [this, Nat.mul_zero, Nat.pow_zero, Nat.div_one, pow_succ, Nat.mul_comm (256 ^ m), Nat.mod_mul]
    omega

theorem chunkBytes_length (c : Config) (chunk : Nat) : (chunkBytes c chunk).length = c.cb := by
  unfold chunkBytes
  split <;> simp

/-- The bytes of a chunk in the little order are those of the big order reversed (R82). -/
theorem bytesUp_reverse (m v : Nat) :
    ((List.range m).map fun j => byteAt v (8 * j)).reverse = (List.range m).map fun j => byteAt v (8 * (m - 1 - j)) := by
  apply List.ext_getElem
  · simp
  · intro i h1 h2
    simp

/-- What the decoder reads from the bytes of a chunk is the chunk, cut to P bits. -/
theorem bytesChunk_chunkBytes (c : Config) (chunk : Nat) : bytesChunk c (chunkBytes c chunk) = chunk % 2 ^ c.P := by
  have hP : 2 ^ c.P = 256 ^ c.cb := by rw [c.P_eq, pow_mul]; norm_num
  unfold bytesChunk chunkBytes
  split
  · rw [joinBytes_bytesDown, hP]
  · rw [bytesUp_reverse, joinBytes_bytesDown, hP]

theorem joinBytes_lt (bs : List Byte) : joinBytes bs < 256 ^ bs.length := by
  induction bs using List.reverseRecOn with
  | nil => simp [joinBytes]
  | append_singleton bs b ih =>
    have hb : b.toNat < 256 := b.isLt
    rw [joinBytes_append, List.length_append, List.length_singleton, pow_succ]
    omega

/-- A chunk read from CB bytes is a P-bit value (R81). -/
theorem bytesChunk_lt (c : Config) {bs : List Byte} (h : bs.length = c.cb) : bytesChunk c bs < 2 ^ c.P := by
  have hP : 2 ^ c.P = 256 ^ c.cb := by rw [c.P_eq, pow_mul]; norm_num
  rw [hP, ← h]
  unfold bytesChunk
  split
  · exact joinBytes_lt bs
  · simpa using joinBytes_lt bs.reverse

theorem topChunk_eq (c : Config) (low : Nat) : topChunk c low = low / c.top % 2 ^ c.P := by
  rw [topChunk, Config.cmask, Nat.and_two_pow_sub_one_eq_mod, Nat.shiftRight_eq_div_pow, Config.top]

/-! ### The input -/

theorem inRead_ok {inp : List Byte} {pos k : Nat} (h : pos + k ≤ inp.length) :
    inRead inp pos k = .ok ((inp.drop pos).take k) := if_pos h

theorem inRead_eq_ok {inp bs : List Byte} {pos k : Nat} :
    inRead inp pos k = .ok bs ↔ pos + k ≤ inp.length ∧ bs = (inp.drop pos).take k := by
  unfold inRead
  split <;> simp_all [eq_comm]

end Sys2Proof.Machine
end

