-- ==== Sys2Proof/Laws/Renorm.lean ====
section
/-!
SUPPORT. RENORM: its loops with fuel against their runs, what one iteration does to the registers of the invariant J
(R118), the bounds on the iterations (R119), and that a run exists whatever the transfer, as long as the transfer
succeeds.
-/

namespace Sys2Proof.Machine

/-! ### The loops with fuel and their runs -/

section Loop

variable {α : Type} {cond : RangeState → Bool} {next : RangeState → RangeState}
  {xfer : RangeState → α → Except Stop α}

/-- A loop with `fuel` iterations to spend answers what a run of at most that many iterations ends on. -/
theorem loopWhile_eq_ok {fuel : Nat} {r r' : RangeState} {a a' : α} :
    loopWhile cond next xfer fuel r a = .ok (r', a') ↔ ∃ k, k ≤ fuel ∧ LoopRuns cond next xfer r a k r' a' := by
  induction fuel generalizing r a with
  | zero =>
    constructor
    · intro h
      unfold loopWhile at h
      split at h
      · cases h
      · cases h; exact ⟨0, le_rfl, .exit (Bool.eq_false_of_not_eq_true ‹_›)⟩
    · rintro ⟨k, hk, hrun⟩
      obtain rfl : k = 0 := by omega
      cases hrun with
      | exit hc => simp [loopWhile, hc]
  | succ fuel ih =>
    constructor
    · intro h
      unfold loopWhile at h
      split at h
      · obtain ⟨b, hb, hrest⟩ := bind_eq_ok.1 h
        obtain ⟨k, hk, hrun⟩ := ih.1 hrest
        exact ⟨k + 1, by omega, .again ‹_› hb hrun⟩
      · cases h; exact ⟨0, by omega, .exit (Bool.eq_false_of_not_eq_true ‹_›)⟩
    · rintro ⟨k, hk, hrun⟩
      cases hrun with
      | exit hc => simp [loopWhile, hc]
      | again hc hx hrest =>
        simp only [loopWhile, hc, if_true]
        exact bind_eq_ok.2 ⟨_, hx, ih.2 ⟨_, by omega, hrest⟩⟩

/-- A run ends where the condition is false. -/
theorem LoopRuns.cond_false {r r' : RangeState} {a a' : α} {k : Nat} (h : LoopRuns cond next xfer r a k r' a') :
    cond r' = false := by
  induction h with
  | exit hc => exact hc
  | again _ _ _ ih => exact ih

/-- The registers of a run do not depend on what is transferred: the iterations of one transfer are those of any other
that succeeds as often. `Ready m a` says that `m` more transfers will succeed from `a`. -/
theorem LoopRuns.transfer {β : Type} {xfer' : RangeState → β → Except Stop β} {Ready : Nat → β → Prop}
    (hready : ∀ m r b, Ready (m + 1) b → ∃ b', xfer' r b = .ok b' ∧ Ready m b')
    {r r' : RangeState} {a a' : α} {k : Nat} (h : LoopRuns cond next xfer r a k r' a') (m : Nat) (b : β)
    (hb : Ready (k + m) b) : ∃ b', LoopRuns cond next xfer' r b k r' b' ∧ Ready m b' := by
  induction h generalizing b with
  | exit hc => exact ⟨b, .exit hc, by simpa using hb⟩
  | @again _ _ _ _ _ k hc _ _ ih =>
    obtain ⟨b1, hx, hb1⟩ := hready (k + m) _ b (by convert hb using 1; omega)
    obtain ⟨b', hrun, hb'⟩ := ih b1 hb1
    exact ⟨b', .again hc hx hrun, hb'⟩

/-- The iterations and the registers of two runs from the same registers are the same, whatever is transferred. -/
theorem LoopRuns.unique {β : Type} {xfer' : RangeState → β → Except Stop β} {r r₁ r₂ : RangeState} {a a₁ : α}
    {b b₁ : β} {k₁ k₂ : Nat} (h₁ : LoopRuns cond next xfer r a k₁ r₁ a₁)
    (h₂ : LoopRuns cond next xfer' r b k₂ r₂ b₁) : k₁ = k₂ ∧ r₁ = r₂ := by
  induction h₁ generalizing b k₂ with
  | exit hc =>
    cases h₂ with
    | exit => exact ⟨rfl, rfl⟩
    | again hc' => simp [hc] at hc'
  | again hc _ _ ih =>
    cases h₂ with
    | exit hc' => simp [hc] at hc'
    | again _ _ hrest => exact ⟨by rw [(ih hrest).1], (ih hrest).2⟩

end Loop

/-! ### One iteration under J -/

section Iteration

variable {c : Config} {r : RangeState}

theorem shiftLeft_wrap (c : Config) (v : Nat) : wrap c.N (v <<< c.P) = v % c.top * 2 ^ c.P := by
  rw [wrap, Nat.shiftLeft_eq, c.two_pow_N, Nat.mul_mod_mul_right]

theorem topAgrees_iff : topAgrees c r = true ↔ r.low / c.top = wrap c.N (r.low + r.range) / c.top := by
  simp only [topAgrees, decide_eq_true_eq, Config.top, xor_lt_two_pow_iff]

theorem RangeState.Placed.low_lt (h : r.Placed c) : r.low < 2 ^ c.N := by
  obtain ⟨h1, h2, -⟩ := h
  omega

/-- Loop 1's condition under J (R115, R118 a): the sum does not reach 2^N, and the part of `low` below the top chunk
and `range` stay together below TOP. -/
theorem RangeState.Placed.of_topAgrees (h : r.Placed c) (ht : topAgrees c r = true) :
    r.low + r.range < 2 ^ c.N ∧ r.low % c.top + r.range < c.top := by
  obtain ⟨h1, h2, h3⟩ := h
  rw [topAgrees_iff] at ht
  have hT := c.top_pos
  have hlt : r.low + r.range < 2 ^ c.N := by
    refine lt_of_le_of_ne h2 fun he => ?_
    rw [he, wrap_two_pow, Nat.zero_div] at ht
    have := h3 he
    have := (Nat.div_eq_zero_iff_lt hT).1 ht
    omega
  refine ⟨hlt, ?_⟩
  rw [wrap_of_lt hlt] at ht
  have hd := Nat.div_add_mod r.low c.top
  have hd2 := Nat.div_add_mod (r.low + r.range) c.top
  rw [← ht] at hd2
  have := Nat.mod_lt (r.low + r.range) hT
  omega

/-- The converse side (R118 b): where loop 1 has ended, `low mod TOP + range` reaches TOP. -/
theorem RangeState.Placed.of_not_topAgrees (h : r.Placed c) (ht : topAgrees c r = false) :
    c.top ≤ r.low % c.top + r.range := by
  obtain ⟨h1, h2, h3⟩ := h
  have hne : ¬ r.low / c.top = wrap c.N (r.low + r.range) / c.top := by
    rw [← topAgrees_iff, ht]; simp
  have hT := c.top_pos
  by_contra hlt
  apply hne
  have hd := Nat.div_add_mod r.low c.top
  have hq : (r.low + r.range) / c.top = r.low / c.top := by
    have he : r.low + r.range = r.low % c.top + r.range + c.top * (r.low / c.top) := by omega
    rw [he, Nat.add_mul_div_left _ _ hT, Nat.div_eq_of_lt (by omega), Nat.zero_add]
  have hsum : r.low + r.range < 2 ^ c.N := by
    have hlow : r.low / c.top < 2 ^ c.P := by
      apply Nat.div_lt_of_lt_mul
      rw [← c.two_pow_N]
      omega
    have : (r.low + r.range) / c.top < 2 ^ c.P := hq ▸ hlow
    rw [c.two_pow_N]
    exact (Nat.div_lt_iff_lt_mul hT).1 this |>.trans_eq (Nat.mul_comm _ _)
  rw [wrap_of_lt hsum, hq]

/-- One iteration of loop 1 under J, in arithmetic (R115): `range` is multiplied and nothing of it is lost, `low` loses
exactly its top chunk. -/
theorem RangeState.Placed.shiftBoth_eq (h : r.Placed c) (ht : topAgrees c r = true) :
    shiftBoth c r = { low := r.low % c.top * 2 ^ c.P, range := r.range * 2 ^ c.P } := by
  have := (h.of_topAgrees ht).2
  rw [shiftBoth, shiftLeft_wrap, shiftLeft_wrap, Nat.mod_eq_of_lt (a := r.range) (by omega)]

/-- J is kept by an iteration of loop 1, and the sum stays below 2^N (R118 a). -/
theorem RangeState.Placed.shiftBoth (h : r.Placed c) (ht : topAgrees c r = true) : (shiftBoth c r).Placed c := by
  have hlt := (h.of_topAgrees ht).2
  have hsum : r.low % c.top * 2 ^ c.P + r.range * 2 ^ c.P < 2 ^ c.N := by
    rw [← Nat.add_mul, c.two_pow_N]
    exact Nat.mul_lt_mul_of_pos_right hlt (Nat.two_pow_pos _)
  rw [h.shiftBoth_eq ht]
  exact ⟨Nat.mul_pos h.1 (Nat.two_pow_pos _), hsum.le, fun he => absurd he hsum.ne⟩

/-- One iteration of loop 2 under J, in arithmetic (R116, R118 b and c): with `d` the distance from `low` up to the
next multiple of TOP, `1 <= d <= range`, and the new interval is the last `d * 2^P` values below 2^N. -/
theorem RangeState.Placed.clampShift_eq (h : r.Placed c) (ht : topAgrees c r = false) (hu : underflows c r = true) :
    1 ≤ c.top - r.low % c.top ∧ c.top - r.low % c.top ≤ r.range ∧
      clampShift c r = { low := r.low % c.top * 2 ^ c.P, range := (c.top - r.low % c.top) * 2 ^ c.P } := by
  have hT := c.top_pos
  have hB := c.bottom_pos
  have hge := h.of_not_topAgrees ht
  have hr : r.range < c.bottom := by simpa [underflows] using hu
  have hm := Nat.mod_lt r.low hT
  refine ⟨by omega, by omega, ?_⟩
  have hmodB : r.low % c.bottom = c.bottom - (c.top - r.low % c.top) := by
    have h1 : r.low % c.bottom = r.low % c.top % c.bottom := by
      rw [c.top_eq, Nat.mod_mul_right_mod]
    have h2 : r.low % c.top = c.bottom - (c.top - r.low % c.top) + c.bottom * (2 ^ c.P - 1) := by
      have := c.two_pow_P_ge
      have h3 : c.bottom * (2 ^ c.P - 1) = c.top - c.bottom := by rw [Nat.mul_sub, Nat.mul_one, ← c.top_eq]
      have := c.two_bottom_le_top
      omega
    rw [h1]
    conv_lhs => rw [h2]
    rw [Nat.add_mul_mod_self_left, Nat.mod_eq_of_lt (by omega)]
  rw [clampShift, neg_and_bottom, hmodB, shiftLeft_wrap, shiftLeft_wrap]
  congr 1
  have h4 : (c.bottom - (c.bottom - (c.top - r.low % c.top))) % c.bottom = c.top - r.low % c.top := by
    rw [Nat.mod_eq_of_lt (by omega)]; omega
  have := c.two_bottom_le_top
  rw [h4, Nat.mod_eq_of_lt (by omega)]

/-- After an iteration of loop 2, `low + range == 2^N` and `low >= TOP`, so J is kept (R118 c). -/
theorem RangeState.Placed.clampShift (h : r.Placed c) (ht : topAgrees c r = false) (hu : underflows c r = true) :
    (clampShift c r).Placed c ∧ (clampShift c r).low + (clampShift c r).range = 2 ^ c.N := by
  obtain ⟨h1, h2, he⟩ := h.clampShift_eq ht hu
  have hr : r.range < c.bottom := by simpa [underflows] using hu
  have hm := Nat.mod_lt r.low c.top_pos
  have hsum : r.low % c.top * 2 ^ c.P + (c.top - r.low % c.top) * 2 ^ c.P = 2 ^ c.N := by
    rw [← Nat.add_mul, c.two_pow_N]; congr 1; omega
  have hrange : (c.top - r.low % c.top) * 2 ^ c.P < c.top := by
    have := Nat.mul_lt_mul_of_pos_right (show c.top - r.low % c.top < c.bottom by omega) (Nat.two_pow_pos c.P)
    rwa [← c.top_eq] at this
  have := c.two_top_le
  rw [he]
  exact ⟨⟨Nat.mul_pos h1 (Nat.two_pow_pos _), hsum.le, fun _ => by dsimp only at *; omega⟩, hsum⟩

/-- Where `low + range == 2^N` under J, loop 1's condition is false (R118 e). -/
theorem RangeState.Placed.topAgrees_false_of_full (h : r.Placed c) (hf : r.low + r.range = 2 ^ c.N) :
    topAgrees c r = false := by
  by_contra ht
  have := (h.of_topAgrees (by simpa using ht)).1
  omega

end Iteration

/-! ### The bounds on the iterations, and that the loops end -/

section Runs

variable {c : Config}

/-- Loop 1 under J: it ends, within NCHUNK - 1 iterations less those `j` already spent (R119), in J, with `range` no
smaller. -/
theorem topLoop_runs (c : Config) (j : Nat) (hj : j ≤ c.nchunk - 1) (r : RangeState) (h : r.Placed c)
    (hr : (2 ^ c.P) ^ j ≤ r.range) :
    ∃ k r', LoopRuns (topAgrees c) (shiftBoth c) (fun _ (_ : Unit) => .ok ()) r () k r' () ∧ j + k ≤ c.nchunk - 1 ∧
      r'.Placed c ∧ r.range ≤ r'.range := by
  obtain ⟨m, hm⟩ : ∃ m, m = c.nchunk - 1 - j := ⟨_, rfl⟩
  induction m generalizing j r with
  | zero =>
    cases ht : topAgrees c r with
    | false => exact ⟨0, r, .exit ht, by omega, h, le_rfl⟩
    | true =>
      have h1 := (h.of_topAgrees ht).2
      have h2 : c.top ≤ (2 ^ c.P) ^ j := by
        rw [c.top_eq_pow]
        exact Nat.pow_le_pow_right (Nat.two_pow_pos _) (by omega)
      omega
  | succ m ih =>
    cases ht : topAgrees c r with
    | false => exact ⟨0, r, .exit ht, by omega, h, le_rfl⟩
    | true =>
      have hs := h.shiftBoth_eq ht
      have hle : r.range ≤ (shiftBoth c r).range := by
        rw [hs]; exact Nat.le_mul_of_pos_right _ (Nat.two_pow_pos _)
      obtain ⟨k, r', hrun, hk, hp, hr'⟩ := ih (j + 1) (by omega) (shiftBoth c r) (h.shiftBoth ht)
        (by rw [hs, pow_succ]; exact Nat.mul_le_mul_right _ hr) (by omega)
      exact ⟨k + 1, r', .again ht rfl hrun, by omega, hp, hle.trans hr'⟩

/-- Loop 2 from a state with `low + range == 2^N`: it ends within NCHUNK - 2 iterations less those already spent, and
keeps that equality (R118 c, R119). -/
theorem underflowLoop_runs_full (c : Config) (j : Nat) (hj : j ≤ c.nchunk - 2) (r : RangeState) (h : r.Placed c)
    (hf : r.low + r.range = 2 ^ c.N) (hr : (2 ^ c.P) ^ j ≤ r.range) :
    ∃ k r', LoopRuns (underflows c) (clampShift c) (fun _ (_ : Unit) => .ok ()) r () k r' () ∧ j + k ≤ c.nchunk - 2 ∧
      r'.Placed c ∧ r'.low + r'.range = 2 ^ c.N := by
  obtain ⟨m, hm⟩ : ∃ m, m = c.nchunk - 2 - j := ⟨_, rfl⟩
  induction m generalizing j r with
  | zero =>
    cases hu : underflows c r with
    | false => exact ⟨0, r, .exit hu, by omega, h, hf⟩
    | true =>
      have h1 : r.range < c.bottom := by simpa [underflows] using hu
      have h2 : c.bottom ≤ (2 ^ c.P) ^ j := by
        rw [c.bottom_eq_pow]
        exact Nat.pow_le_pow_right (Nat.two_pow_pos _) (by omega)
      omega
  | succ m ih =>
    cases hu : underflows c r with
    | false => exact ⟨0, r, .exit hu, by omega, h, hf⟩
    | true =>
      have ht := h.topAgrees_false_of_full hf
      obtain ⟨h1, h2, he⟩ := h.clampShift_eq ht hu
      obtain ⟨hp, hf'⟩ := h.clampShift ht hu
      have hd : c.top - r.low % c.top = r.range := by
        have hr1 : r.range < c.bottom := by simpa [underflows] using hu
        have hB := c.two_bottom_le_top
        have hN := c.two_top_le
        have hlow : r.low = c.top - r.range + c.top * (2 ^ c.P - 1) := by
          have h3 : c.top * (2 ^ c.P - 1) = 2 ^ c.N - c.top := by rw [Nat.mul_sub, Nat.mul_one, ← c.two_pow_N]
          omega
        have hge := h.1
        rw [hlow, Nat.add_mul_mod_self_left, Nat.mod_eq_of_lt (by omega)]
        omega
      obtain ⟨k, r', hrun, hk, hp', hfull⟩ := ih (j + 1) (by omega) (clampShift c r) hp hf'
        (by rw [he, hd, pow_succ]; exact Nat.mul_le_mul_right _ hr) (by omega)
      exact ⟨k + 1, r', .again hu rfl hrun, by omega, hp', hfull⟩

/-- Loop 2 after loop 1 has ended (R118, R119): it ends within NCHUNK - 2 iterations in J; if it runs at all it ends
with `low + range == 2^N`. -/
theorem underflowLoop_runs (c : Config) (r : RangeState) (h : r.Placed c) (ht : topAgrees c r = false) :
    ∃ k r', LoopRuns (underflows c) (clampShift c) (fun _ (_ : Unit) => .ok ()) r () k r' () ∧ k ≤ c.nchunk - 2 ∧
      r'.Placed c ∧ topAgrees c r' = false ∧ (0 < k → r'.low + r'.range = 2 ^ c.N) := by
  cases hu : underflows c r with
  | false => exact ⟨0, r, .exit hu, by omega, h, ht, by omega⟩
  | true =>
    obtain ⟨h1, h2, he⟩ := h.clampShift_eq ht hu
    obtain ⟨hp, hf⟩ := h.clampShift ht hu
    have := c.nchunk_ge
    obtain ⟨k, r', hrun, hk, hp', hf'⟩ := underflowLoop_runs_full c 1 (by omega) _ hp hf
      (by rw [he, pow_one]; exact Nat.le_mul_of_pos_left _ h1)
    exact ⟨k + 1, r', .again hu rfl hrun, by omega, hp', hp'.topAgrees_false_of_full hf', fun _ => hf'⟩

/-- RENORM's runs under J, for a transfer that needs nothing (R117, R118, R119). -/
theorem renorm_runs_unit (c : Config) (r : RangeState) (h : r.Placed c) :
    ∃ k1 k2 r', RenormRuns c (fun _ (_ : Unit) => .ok ()) r () k1 k2 r' () ∧ k1 ≤ c.nchunk - 1 ∧ k2 ≤ c.nchunk - 2 ∧
      r'.Placed c ∧ c.bottom ≤ r'.range ∧ topAgrees c r' = false ∧ (0 < k2 → r'.low + r'.range = 2 ^ c.N) := by
  obtain ⟨k1, m, hrun1, hk1, hp1, -⟩ := topLoop_runs c 0 (by omega) r h (by simpa using h.1)
  obtain ⟨k2, r', hrun2, hk2, hp2, ht2, hf⟩ := underflowLoop_runs c m hp1 hrun1.cond_false
  refine ⟨k1, k2, r', ⟨m, (), hrun1, hrun2⟩, by omega, hk2, hp2, ?_, ht2, hf⟩
  have hc := hrun2.cond_false
  simpa [underflows] using hc

/-- RENORM under J with any transfer that is ready for the chunks it may have to move: it completes, and `Ready` says
how many more transfers would succeed. -/
theorem renorm_runs {β : Type} {xfer : RangeState → β → Except Stop β} {Ready : Nat → β → Prop}
    (hready : ∀ m r b, Ready (m + 1) b → ∃ b', xfer r b = .ok b' ∧ Ready m b') (c : Config) (r : RangeState)
    (h : r.Placed c) (b : β) (hb : Ready (2 * c.nchunk - 3) b) :
    ∃ k1 k2 r' b', RenormRuns c xfer r b k1 k2 r' b' ∧ k1 ≤ c.nchunk - 1 ∧ k2 ≤ c.nchunk - 2 ∧ r'.Placed c ∧
      c.bottom ≤ r'.range ∧ topAgrees c r' = false ∧ (0 < k2 → r'.low + r'.range = 2 ^ c.N) ∧
      Ready (2 * c.nchunk - 3 - (k1 + k2)) b' := by
  obtain ⟨k1, k2, r', ⟨m, u, hrun1, hrun2⟩, hk1, hk2, hrest⟩ := renorm_runs_unit c r h
  have := c.nchunk_ge
  obtain ⟨b1, hx1, hb1⟩ := hrun1.transfer hready (2 * c.nchunk - 3 - k1) b (by convert hb using 1; omega)
  obtain ⟨b2, hx2, hb2⟩ := hrun2.transfer hready (2 * c.nchunk - 3 - (k1 + k2)) b1 (by convert hb1 using 1; omega)
  exact ⟨k1, k2, r', b2, ⟨m, b1, hx1, hx2⟩, hk1, hk2, hrest.1, hrest.2.1, hrest.2.2.1, hrest.2.2.2, hb2⟩

/-- A run within the iterations RENORM has is what `renorm` answers. -/
theorem RenormRuns.renorm_eq {β : Type} {xfer : RangeState → β → Except Stop β} {r r' : RangeState} {b b' : β}
    {k1 k2 : Nat} (h : RenormRuns c xfer r b k1 k2 r' b') (hk1 : k1 ≤ c.nchunk) (hk2 : k2 ≤ c.nchunk) :
    renorm c xfer r b = .ok (r', b') := by
  obtain ⟨m, b1, h1, h2⟩ := h
  exact bind_eq_ok.2 ⟨(m, b1), loopWhile_eq_ok.2 ⟨k1, hk1, h1⟩, loopWhile_eq_ok.2 ⟨k2, hk2, h2⟩⟩

/-- What `renorm` answers is a run of the loops. -/
theorem runs_of_renorm_eq {β : Type} {xfer : RangeState → β → Except Stop β} {r r' : RangeState} {b b' : β}
    (h : renorm c xfer r b = .ok (r', b')) : ∃ k1 k2, RenormRuns c xfer r b k1 k2 r' b' := by
  obtain ⟨⟨m, b1⟩, h1, h2⟩ := bind_eq_ok.1 h
  obtain ⟨k1, -, hrun1⟩ := loopWhile_eq_ok.1 h1
  obtain ⟨k2, -, hrun2⟩ := loopWhile_eq_ok.1 h2
  exact ⟨k1, k2, m, b1, hrun1, hrun2⟩

/-- Whatever RENORM answers from registers of J has the invariant between commands (R34, R117). -/
theorem renorm_settled {β : Type} {xfer : RangeState → β → Except Stop β} {r r' : RangeState} {b b' : β}
    (hp : r.Placed c) (h : renorm c xfer r b = .ok (r', b')) : r'.Settled c ∧ topAgrees c r' = false := by
  obtain ⟨k1, k2, m, b1, hrun1, hrun2⟩ := runs_of_renorm_eq h
  obtain ⟨j1, j2, r2, ⟨m2, u, hu1, hu2⟩, -, -, hp2, hb2, ht2, -⟩ := renorm_runs_unit c r hp
  obtain ⟨-, rfl⟩ := hrun1.unique hu1
  obtain ⟨-, rfl⟩ := hrun2.unique hu2
  refine ⟨⟨hp2, hb2, ?_⟩, ht2⟩
  have := c.mask_eq
  obtain ⟨h1, h2, h3⟩ := hp2
  have := c.top_pos
  by_contra hm
  have hlow : r'.low = 0 := by omega
  have := h3 (by omega)
  omega

end Runs

end Sys2Proof.Machine
end

