-- ==== Sys2Proof/Laws/Symbols.lean ====
section
/-!
SUPPORT. The interval of a symbol: what NARROW leaves in exact integers (R111 to R113), and what SEARCH finds
(R171 to R173).
-/

namespace Sys2Proof.Machine

section Narrow

variable {c : Config} {t : Table} {i : Nat} {r : RangeState}

/-- The per-unit width is at least 1 (R111). -/
theorem unitWidth_pos (hw : tableWF c t = true) (h : r.Settled c) : 1 ≤ r.range / cumAt t (t.n - 1) := by
  obtain ⟨h1, h2⟩ := total_bounds hw
  obtain ⟨-, h3, -⟩ := h
  exact (Nat.one_le_div_iff h1).2 (h2.trans h3)

/-- The interval of a symbol stays inside the interval it narrows (R112, R113). -/
theorem placedAt_inside (hw : tableWF c t = true) (hi : i < t.n) (r : RangeState) :
    (placedAt t i r).low + (placedAt t i r).range ≤ r.low + r.range := by
  have h1 := cumLo_add_countAt hw hi
  have h2 := cumAt_le_total hw hi
  have h3 : r.range / cumAt t (t.n - 1) * cumAt t i ≤ r.range :=
    (Nat.mul_le_mul_left _ h2).trans (Nat.div_mul_le_self _ _)
  rw [← h1, Nat.mul_add] at h3
  simp only [placedAt]
  omega

/-- In a settled Range State NARROW loses no bit: it leaves the exact interval of the symbol, which is in J
(R112, R118). -/
theorem narrow_eq (hw : tableWF c t = true) (hi : i < t.n) (h : r.Settled c) :
    narrow c (cumAt t (t.n - 1)) (cumLo t i) (countAt t i) r = placedAt t i r ∧ (placedAt t i r).Placed c := by
  have hin := placedAt_inside hw hi r
  have hu := unitWidth_pos hw h
  obtain ⟨⟨h1, h2, h3⟩, -, -⟩ := h
  have hpos : 1 ≤ (placedAt t i r).range := Nat.mul_pos hu (countAt_pos hw hi)
  have hlow : r.low ≤ (placedAt t i r).low := Nat.le_add_right _ _
  have hr : (placedAt t i r).range < 2 ^ c.N := by
    by_contra hge
    have hz : r.low = 0 ∧ r.low + r.range = 2 ^ c.N := by omega
    have := h3 hz.2
    have := c.top_pos
    omega
  refine ⟨?_, hpos, by omega, fun he => le_trans (h3 (by omega)) hlow⟩
  have hl : (placedAt t i r).low < 2 ^ c.N := by omega
  simp only [placedAt] at hl hr
  simp only [narrow, place, scale, placedAt, wrap_of_lt hl, wrap_of_lt hr]

end Narrow

section Search

variable {t : Table} {target : Nat}

/-- The loop of SEARCH keeps: everything left of `left` is at most the target, and `right` is the last index or above
the target (R172). -/
theorem searchLoop_spec (hlen : t.countCum.length = t.n)
    (hmono : ∀ i j, i ≤ j → j < t.n → cumAt t i ≤ cumAt t j) (fuel left right : Nat) (hlr : left ≤ right)
    (hr : right < t.n) (hfuel : right - left ≤ fuel) (hleft : ∀ j < left, cumAt t j ≤ target)
    (hright : right = t.n - 1 ∨ target < cumAt t right) :
    ∃ i, searchLoop t.countCum target fuel left right = .ok i ∧ i < t.n ∧ (∀ j < i, cumAt t j ≤ target) ∧
      (i = t.n - 1 ∨ target < cumAt t i) := by
  induction fuel generalizing left right with
  | zero =>
    obtain rfl : left = right := by omega
    exact ⟨left, rfl, hr, hleft, hright⟩
  | succ fuel ih =>
    by_cases hlt : left < right
    · have hm : (left + right) / 2 < right := by omega
      have hread := tabRead_countCum hlen (show (left + right) / 2 < t.n by omega)
      simp only [searchLoop, hlt, if_true, hread, Except.bind, movesLeftUp, decide_eq_true_eq]
      by_cases hc : cumAt t ((left + right) / 2) ≤ target
      · rw [if_pos hc]
        exact ih _ _ (by omega) hr (by omega)
          (fun j hj => (hmono j _ (by omega) (by omega)).trans hc) hright
      · rw [if_neg hc]
        exact ih _ _ (by omega) (by omega) (by omega) hleft (.inr (by omega))
    · obtain rfl : left = right := by omega
      exact ⟨left, by simp [searchLoop], hr, hleft, hright⟩

/-- What SEARCH finds in a well-formed table (R172, R173): an index of the table; all indices below it hold sums of at
most the target; and it is the last index or its own sum is above the target. -/
theorem search_spec {c : Config} (hw : tableWF c t = true) (target : Nat) :
    ∃ i, search t.n t.countCum target = .ok i ∧ i < t.n ∧ (∀ j < i, cumAt t j ≤ target) ∧
      (i = t.n - 1 ∨ target < cumAt t i) := by
  obtain ⟨-, hlen, hn, -⟩ := tableWF_iff.1 hw
  exact searchLoop_spec hlen (fun i j hij hj => cumAt_mono hw hij hj) _ 0 _ (Nat.zero_le _) (by omega) le_rfl
    (by omega) (.inl rfl)

end Search

end Sys2Proof.Machine
end

