-- ==== Sys2Proof/Laws/Commands.lean ====
section
/-!
SUPPORT. One inversion lemma per command: when it answers a next state, under which guards, and which state. The
invariants, the frames and the completion of a command follow from these without unfolding it.
-/

namespace Sys2Proof.Machine

theorem require_bind_eq_ok {β : Type} {p : Bool} {r : Refusal} {f : Unit → Except Stop β} {b : β} :
    (require p r >>= f) = .ok b ↔ p = true ∧ f () = .ok b := by
  cases p <;> simp

theorem unmarked_bind_eq_ok {β : Type} {m : Option Refusal} {f : Unit → Except Stop β} {b : β} :
    (unmarked m >>= f) = .ok b ↔ m = none ∧ f () = .ok b := by
  cases m <;> simp

theorem do_bind_eq_ok {β γ : Type} {x : Except Stop β} {f : β → Except Stop γ} {b : γ} :
    (x >>= f) = .ok b ↔ ∃ a, x = .ok a ∧ f a = .ok b := bind_eq_ok

theorem pure_eq_ok {β : Type} {a b : β} : (pure a : Except Stop β) = .ok b ↔ b = a := by
  simp [pure, Except.pure, eq_comm]

variable {s t : State}

theorem execEncStart_eq_next :
    execEncStart s = .next t ↔ s.enc.mark = none ∧ s.enc.phase.mayStart = true ∧
      t = s.withEnc { s.enc with phase := .primed } s.out := by
  simp only [execEncStart, finish_eq_next, unmarked_bind_eq_ok, require_bind_eq_ok, pure_eq_ok]

/-- The guards of ENCODE (R132, R186), all of them. -/
def EncodeGuards (t : Table) (index : Nat) (s : State) : Prop :=
  s.enc.mark = none ∧ s.enc.phase.mayCode = true ∧ s.cfg.admits t.n = true ∧ index < t.n ∧ tableWF s.cfg t = true

theorem execEncode_eq_next {tab : Table} {index : Nat} :
    execEncode tab index s = .next t ↔ EncodeGuards tab index s ∧
      ∃ x, renorm s.cfg (emitXfer s.cfg)
          (narrow s.cfg (cumAt tab (tab.n - 1)) (cumLo tab index) (countAt tab index) s.enc.toRangeState) s.out = .ok x ∧
        t = s.withEnc { s.enc with toRangeState := x.1, phase := .coding } x.2 := by
  simp only [execEncode, finish_eq_next, unmarked_bind_eq_ok, require_bind_eq_ok, decide_eq_true_eq, EncodeGuards,
    and_assoc]
  refine and_congr_right fun _ => and_congr_right fun _ => and_congr_right fun _ => and_congr_right fun hi =>
    and_congr_right fun hw => ?_
  obtain ⟨h1, h2, h3, -⟩ := tableWF_iff.1 hw
  simp only [readTotal_eq h2 h3, readCumLo_eq h2 hi, readCount_eq h1 hi, ok_bind, do_bind_eq_ok, pure_eq_ok]

theorem execEncFinish_eq_next :
    execEncFinish s = .next t ↔ s.enc.mark = none ∧ s.enc.phase.mayCode = true ∧
      t = s.withEnc { s.enc with low := (flush s.cfg s.cfg.nchunk s.enc.low s.out).1, phase := .finalized }
        (flush s.cfg s.cfg.nchunk s.enc.low s.out).2 := by
  simp only [execEncFinish, finish_eq_next, unmarked_bind_eq_ok, require_bind_eq_ok, pure_eq_ok]

theorem execDecStart_eq_next :
    execDecStart s = .next t ↔ s.dec.mark = none ∧ s.dec.phase.mayStart = true ∧
      ∃ w, prime s.cfg s.inp s.cfg.nchunk { code := 0, rpos := 0 } = .ok w ∧
        t = s.withDec { s.dec with toWindow := w, phase := .primed } s.results := by
  simp only [execDecStart, finish_eq_next, unmarked_bind_eq_ok, require_bind_eq_ok]
  simp only [do_bind_eq_ok, pure_eq_ok]

/-- The guards of DECODE (R153, R186), all of them. -/
def DecodeGuards (t : Table) (s : State) : Prop :=
  s.dec.mark = none ∧ s.dec.phase.mayCode = true ∧ s.cfg.admits t.n = true ∧ tableWF s.cfg t = true

theorem search_lt {c : Config} {tab : Table} (hw : tableWF c tab = true) {target i : Nat}
    (h : search tab.n tab.countCum target = .ok i) : i < tab.n := by
  obtain ⟨j, hj, hlt, -⟩ := search_spec hw target
  rw [h] at hj
  cases hj
  exact hlt

theorem execDecode_eq_next {tab : Table} :
    execDecode tab s = .next t ↔ DecodeGuards tab s ∧
      ∃ target i x, targetOf s.cfg (scale (cumAt tab (tab.n - 1)) s.dec.toRangeState) s.dec.code = .ok target ∧
        search tab.n tab.countCum target = .ok i ∧
        renorm s.cfg (consumeXfer s.cfg s.inp)
          (narrow s.cfg (cumAt tab (tab.n - 1)) (cumLo tab i) (countAt tab i) s.dec.toRangeState) s.dec.toWindow = .ok x ∧
        t = s.withDec { s.dec with toRangeState := x.1, toWindow := x.2, phase := .coding } (s.results ++ [i]) := by
  simp only [execDecode, finish_eq_next, unmarked_bind_eq_ok, require_bind_eq_ok, DecodeGuards, and_assoc]
  refine and_congr_right fun _ => and_congr_right fun _ => and_congr_right fun _ => and_congr_right fun hw => ?_
  obtain ⟨h1, h2, h3, -⟩ := tableWF_iff.1 hw
  simp only [readTotal_eq h2 h3, ok_bind, do_bind_eq_ok, pure_eq_ok, narrow]
  constructor
  · rintro ⟨target, ht, i, hs, lo, hlo, cnt, hcnt, x, hx, rfl⟩
    have hi := search_lt hw hs
    rw [readCumLo_eq h2 hi] at hlo
    rw [readCount_eq h1 hi] at hcnt
    cases hlo
    cases hcnt
    exact ⟨target, i, x, ht, hs, hx, rfl⟩
  · rintro ⟨target, i, x, ht, hs, hx, rfl⟩
    have hi := search_lt hw hs
    exact ⟨target, ht, i, hs, _, readCumLo_eq h2 hi, _, readCount_eq h1 hi, x, hx, rfl⟩

theorem execDecFinish_eq_next :
    execDecFinish s = .next t ↔ s.dec.mark = none ∧ s.dec.phase.mayCode = true ∧
      t = s.withDec { s.dec with phase := .finalized } s.results := by
  simp only [execDecFinish, finish_eq_next, unmarked_bind_eq_ok, require_bind_eq_ok, pure_eq_ok]

/-- The phases of R28 by name. -/
theorem mayStart_iff {p : Phase} : p.mayStart = true ↔ p = .created := by cases p <;> simp [Phase.mayStart]

theorem mayCode_iff {p : Phase} : p.mayCode = true ↔ p = .primed ∨ p = .coding := by
  cases p <;> simp [Phase.mayCode]

end Sys2Proof.Machine
end

