-- ==== Sys2Proof/Laws/Streams.lean ====
section
/-!
SUPPORT. The streams: what EMIT, CONSUME, the flush and the priming do in arithmetic, and what a run of RENORM does to
`out` and to `rpos`.
-/

namespace Sys2Proof.Machine

variable {c : Config}

/-! ### The value of the leading chunks of a byte sequence -/

theorem chunkIn_lt (c : Config) {bs : List Byte} {k : Nat} (h : (k + 1) * c.cb ≤ bs.length) :
    chunkIn c bs k < 2 ^ c.P := by
  apply bytesChunk_lt
  rw [List.length_take, List.length_drop]
  have : (k + 1) * c.cb = k * c.cb + c.cb := by ring
  omega

theorem chunksValue_lt (c : Config) {bs : List Byte} {m : Nat} (h : m * c.cb ≤ bs.length) :
    chunksValue c bs m < 2 ^ (m * c.P) := by
  induction m with
  | zero => simp [chunksValue]
  | succ m ih =>
    have h1 := ih (le_trans (Nat.mul_le_mul_right _ (Nat.le_succ m)) h)
    have h2 := chunkIn_lt c h
    rw [chunksValue, Nat.succ_mul, pow_add]
    calc chunksValue c bs m * 2 ^ c.P + chunkIn c bs m
        < chunksValue c bs m * 2 ^ c.P + 2 ^ c.P := by omega
      _ = (chunksValue c bs m + 1) * 2 ^ c.P := by ring
      _ ≤ 2 ^ (m * c.P) * 2 ^ c.P := Nat.mul_le_mul_right _ h1

/-- The first chunk of a sequence is the most significant (R60). -/
theorem chunksValue_cons (c : Config) {first rest : List Byte} (hf : first.length = c.cb) (m : Nat) :
    chunksValue c (first ++ rest) (m + 1) = bytesChunk c first * 2 ^ (m * c.P) + chunksValue c rest m := by
  induction m with
  | zero => simp [chunksValue, chunkIn, ← hf]
  | succ m ih =>
    have hk : chunkIn c (first ++ rest) (m + 1) = chunkIn c rest m := by
      have hdrop : (first ++ rest).drop ((m + 1) * c.cb) = rest.drop (m * c.cb) := by
        rw [List.drop_append, List.drop_eq_nil_of_le (by rw [hf, Nat.succ_mul]; omega), hf, Nat.succ_mul]
        simp
      rw [chunkIn, chunkIn, hdrop]
    rw [chunksValue, ih, hk, chunksValue, Nat.add_mul, Nat.mul_assoc, ← pow_add, Nat.add_assoc, Nat.succ_mul]

/-! ### EMIT and the flush -/

theorem emit_eq (c : Config) (low : Nat) (out : List Byte) :
    emit c low out = out ++ chunkBytes c (low / c.top % 2 ^ c.P) := by
  rw [emit, outAppend, topChunk_eq]

theorem emit_length (c : Config) (low : Nat) (out : List Byte) : (emit c low out).length = out.length + c.cb := by
  simp [emit, outAppend, chunkBytes_length]

/-- The flush shifts `low` and appends its chunks from the top down (R134). -/
theorem flush_eq (c : Config) (m low : Nat) (hm : m ≤ c.nchunk) (out : List Byte) (hlow : low < 2 ^ c.N) :
    flush c m low out = (low * 2 ^ (m * c.P) % 2 ^ c.N,
      out ++ (List.range m).flatMap (fun k => chunkBytes c (chunkOf c low k))) := by
  induction m generalizing low out with
  | zero => simp [flush, Nat.mod_eq_of_lt hlow]
  | succ m ih =>
    have hw : wrap c.N (low <<< c.P) < 2 ^ c.N := wrap_lt _ _
    rw [flush, ih _ (by omega) _ hw, emit_eq]
    refine Prod.ext ?_ ?_
    · simp only [wrap, Nat.shiftLeft_eq, Nat.mod_mul_mod]
      rw [Nat.mul_assoc, ← pow_add, Nat.add_mul, Nat.one_mul, Nat.add_comm c.P]
    · have h0 : chunkOf c low 0 = low / c.top % 2 ^ c.P := by simp [chunkOf, Config.top]
      have hs : ∀ k ∈ List.range m, chunkBytes c (chunkOf c (wrap c.N (low <<< c.P)) k)
          = chunkBytes c (chunkOf c low (k + 1)) := by
        intro k hk
        have hk := List.mem_range.1 hk
        have hle : (k + 1 + 1) * c.P ≤ c.N := by
          rw [c.N_eq]; exact Nat.mul_le_mul_right _ (by omega)
        congr 1
        have hN : 2 ^ c.N = 2 ^ (c.N - (k + 1) * c.P) * 2 ^ ((k + 1) * c.P) := by
          rw [← pow_add]; congr 1
          have : (k + 1 + 1) * c.P = (k + 1) * c.P + c.P := by ring
          omega
        have hd : 2 ^ (c.N - (k + 1) * c.P) = 2 ^ (c.N - (k + 1 + 1) * c.P) * 2 ^ c.P := by
          rw [← pow_add]; congr 1
          have : (k + 1 + 1) * c.P = (k + 1) * c.P + c.P := by ring
          omega
        have hsplit : 2 ^ ((k + 1) * c.P) = 2 ^ c.P * 2 ^ (k * c.P) := by
          rw [← pow_add]; congr 1; ring
        rw [chunkOf, chunkOf, wrap, Nat.shiftLeft_eq, hN, Nat.mod_mul_right_div_self, hd,
          Nat.mul_div_mul_right _ _ (Nat.two_pow_pos _), hsplit, Nat.mod_mul_right_mod]
      dsimp only
      rw [List.range_succ_eq_map, List.flatMap_cons, h0, List.append_assoc, List.flatMap_map]
      congr 2
      exact List.flatMap_congr hs

/-! ### CONSUME and the priming -/

theorem consume_eq (c : Config) {inp : List Byte} {w : Window} (h : w.rpos + c.cb ≤ inp.length) :
    consume c inp w = .ok
      { code := w.code % c.top * 2 ^ c.P + bytesChunk c ((inp.drop w.rpos).take c.cb), rpos := w.rpos + c.cb } := by
  have hlt : bytesChunk c ((inp.drop w.rpos).take c.cb) < 2 ^ c.P := by
    apply bytesChunk_lt
    rw [List.length_take, List.length_drop]
    omega
  rw [consume, inRead_ok h]
  simp only [Except.bind, Except.ok.injEq, Window.mk.injEq, and_true]
  generalize bytesChunk c ((inp.drop w.rpos).take c.cb) = v at hlt
  rw [wrap, Nat.shiftLeft_eq, c.two_pow_N]
  have h1 := Nat.mod_lt w.code c.top_pos
  have hd := Nat.div_add_mod w.code c.top
  have h2 : w.code * 2 ^ c.P + v = w.code % c.top * 2 ^ c.P + v + c.top * 2 ^ c.P * (w.code / c.top) := by
    conv_lhs => rw [← hd]
    ring
  rw [h2, Nat.add_mul_mod_self_left, Nat.mod_eq_of_lt]
  calc w.code % c.top * 2 ^ c.P + v < (w.code % c.top + 1) * 2 ^ c.P := by rw [Nat.add_mul]; omega
    _ ≤ c.top * 2 ^ c.P := Nat.mul_le_mul_right _ h1

theorem consume_underrun (c : Config) {inp : List Byte} {w : Window} (h : inp.length < w.rpos + c.cb) :
    consume c inp w = .error (.refuse .streamUnderrun) := by
  rw [consume, inRead, if_neg (by omega)]
  rfl

theorem consume_eq_ok {inp : List Byte} {w w' : Window} (h : consume c inp w = .ok w') :
    w.rpos + c.cb ≤ inp.length ∧ w'.rpos = w.rpos + c.cb ∧ w'.code < 2 ^ c.N := by
  by_cases hle : w.rpos + c.cb ≤ inp.length
  · rw [consume, inRead_ok hle] at h
    cases h
    exact ⟨hle, rfl, wrap_lt _ _⟩
  · rw [consume_underrun c (by omega)] at h
    cases h

/-- Priming on enough input takes the leading chunks in (R151). -/
theorem prime_eq (c : Config) (inp : List Byte) (m j : Nat) (hjm : j + m ≤ c.nchunk)
    (hlen : (j + m) * c.cb ≤ inp.length) :
    prime c inp m { code := chunksValue c inp j, rpos := j * c.cb } =
      .ok { code := chunksValue c inp (j + m), rpos := (j + m) * c.cb } := by
  induction m generalizing j with
  | zero => rfl
  | succ m ih =>
    have hstep : (j + 1) * c.cb ≤ inp.length := le_trans (Nat.mul_le_mul_right _ (by omega)) hlen
    have hr : j * c.cb + c.cb = (j + 1) * c.cb := by ring
    have hv : chunksValue c inp j < c.top := by
      refine lt_of_lt_of_le (chunksValue_lt c (le_trans (Nat.mul_le_mul_right _ (Nat.le_succ j)) hstep)) ?_
      rw [c.top_eq_pow, c.two_pow_P_pow]
      exact Nat.pow_le_pow_right (by omega) (Nat.mul_le_mul_right _ (by omega))
    have hone : consume c inp { code := chunksValue c inp j, rpos := j * c.cb } =
        .ok { code := chunksValue c inp (j + 1), rpos := (j + 1) * c.cb } := by
      rw [consume_eq c (by dsimp only; omega), Nat.mod_eq_of_lt hv, hr]
      rfl
    rw [prime, hone]
    simp only [Except.bind]
    rw [ih (j + 1) (by omega) (by convert hlen using 2; omega)]
    have : j + 1 + m = j + (m + 1) := by omega
    rw [this]

/-! ### A run of RENORM and the streams -/

theorem LoopRuns.emit_out {cond : RangeState → Bool} {next : RangeState → RangeState} {r r' : RangeState}
    {out out' : List Byte} {k : Nat} (h : LoopRuns cond next (emitXfer c) r out k r' out') :
    out <+: out' ∧ out'.length = out.length + k * c.cb := by
  induction h with
  | exit _ => simp
  | again _ hx _ ih =>
    simp only [emitXfer, Except.ok.injEq] at hx
    subst hx
    refine ⟨List.IsPrefix.trans ⟨_, (emit_eq c _ _).symm⟩ ih.1, ?_⟩
    rw [ih.2, emit_length]
    ring

theorem LoopRuns.consume_rpos {cond : RangeState → Bool} {next : RangeState → RangeState} {r r' : RangeState}
    {inp : List Byte} {w w' : Window} {k : Nat} (h : LoopRuns cond next (consumeXfer c inp) r w k r' w') :
    w'.rpos = w.rpos + k * c.cb ∧ (w.rpos ≤ inp.length → w'.rpos ≤ inp.length) ∧
      (w.code < 2 ^ c.N → w'.code < 2 ^ c.N) := by
  induction h with
  | exit _ => simp
  | again _ hx _ ih =>
    obtain ⟨hle, hr, hc⟩ := consume_eq_ok hx
    refine ⟨?_, fun _ => ih.2.1 (by omega), fun _ => ih.2.2 hc⟩
    rw [ih.1, hr]
    ring

end Sys2Proof.Machine
end

