-- ==== Sys2Proof/Laws/Loops.lean ====
section
/-!
SUPPORT. The loops of RENORM from any registers: how long a run can be (R119), that RENORM does not fault under J, and
the same run seen by EMIT and by CONSUME (R120); EMIT appends the same bytes whatever was sent before (R53).
-/

namespace Sys2Proof.Machine

variable {α : Type} {c : Config} {xfer : RangeState → α → Except Stop α} {k : Nat} {r r' : RangeState} {a a' : α}

/-- Reducing mod 2^N keeps the low zero bits. -/
theorem dvd_wrap {N d v : Nat} (h : d ≤ N) (hv : 2 ^ d ∣ v) : 2 ^ d ∣ wrap N v := by
  rw [wrap, Nat.dvd_mod_iff (pow_dvd_pow 2 h)]; exact hv

/-- Loop 1 never ends from zero registers (R119). -/
theorem no_topLoop_from_zero :
    ¬ LoopRuns (topAgrees c) (shiftBoth c) xfer ⟨0,0⟩ a k r' a' := by
  intro h
  generalize hr : (⟨0,0⟩ : RangeState) = r at h
  have hc : topAgrees c ⟨0,0⟩ = true := by simp [topAgrees, wrap, c.top_pos]
  induction h with
  | exit h => subst hr; simp [hc] at h
  | again _ _ _ ih => subst hr; exact ih (by simp [shiftBoth, wrap])

/-- After `j` shifts the low `j * P` bits are zero, so loop 1 has at most NCHUNK - 1 iterations. -/
theorem topLoop_bound_aux
    (h : LoopRuns (topAgrees c) (shiftBoth c) xfer r a k r' a') :
   ∀ j, j ≤ c.nchunk → 2 ^ (j * c.P) ∣ r.low → 2 ^ (j * c.P) ∣ r.range → r.low < 2 ^ c.N → r.range < 2 ^ c.N →
      k + j ≤ c.nchunk - 1 := by
  induction h with
  | @exit r a hc =>
    intro j hj d1 d2 l1 l2
    have := c.nchunk_ge
    by_contra hcon
    have : j = c.nchunk := by omega
    subst this
    rw [← c.N_eq] at d1 d2
    have z1 := Nat.eq_zero_of_dvd_of_lt d1 l1
    have z2 := Nat.eq_zero_of_dvd_of_lt d2 l2
    simp [topAgrees, z1, z2, wrap, c.top_pos] at hc
  | @again r _ _ _ _ _ _ _ hrun ih =>
    intro j hj d1 d2 l1 l2
    rcases Nat.lt_or_ge j c.nchunk with h | h
    · have hle : (j+1) * c.P ≤ c.N := by rw [c.N_eq]; exact Nat.mul_le_mul_right _ h
      have hmul : 2 ^ ((j+1) * c.P) = 2 ^ (j * c.P) * 2 ^ c.P := by rw [← pow_add]; congr 1; ring
      have := ih (j+1) h (dvd_wrap hle (by rw [Nat.shiftLeft_eq, hmul]; exact Nat.mul_dvd_mul_right d1 _))
        (dvd_wrap hle (by rw [Nat.shiftLeft_eq, hmul]; exact Nat.mul_dvd_mul_right d2 _)) (wrap_lt _ _) (wrap_lt _ _)
      omega
    · have : j = c.nchunk := by omega
      subst this
      rw [← c.N_eq] at d1 d2
      have z1 := Nat.eq_zero_of_dvd_of_lt d1 l1
      have z2 := Nat.eq_zero_of_dvd_of_lt d2 l2
      obtain ⟨a, b⟩ := r
      dsimp only at z1 z2
      subst z1 z2
      have : shiftBoth c ⟨0,0⟩ = ⟨0,0⟩ := by simp [shiftBoth, wrap]
      rw [this] at hrun
      exact absurd hrun no_topLoop_from_zero

/-- A run of loop 1 that ends makes at most NCHUNK - 1 iterations, from any registers (R119). -/
theorem topLoop_bound
    (h : LoopRuns (topAgrees c) (shiftBoth c) xfer r a k r' a') :
    k ≤ c.nchunk - 1 := by
  cases h with
  | exit => omega
  | again hc hx hr =>
    have h1 : 1 * c.P ≤ c.N := by have := c.two_P_lt; omega
    have hd : ∀ v, 2 ^ (1 * c.P) ∣ wrap c.N (v <<< c.P) := fun v =>
      dvd_wrap h1 (by rw [Nat.shiftLeft_eq, Nat.one_mul]; exact Nat.dvd_mul_left _ _)
    have := topLoop_bound_aux hr 1 (by have := c.nchunk_ge; omega) (hd _) (hd _) (wrap_lt _ _) (wrap_lt _ _)
    omega

/-- The clamp of a multiple of BOTTOM is 0 (R116). -/
theorem clamp_eq_zero {c : Config} {low : Nat} (h : c.bottom ∣ low) : neg c.N low &&& (c.bottom - 1) = 0 := by
  rw [neg_and_bottom, Nat.dvd_iff_mod_eq_zero.1 h]; simp

/-- Loop 2 never ends from a multiple of BOTTOM with `range = 0`. -/
theorem no_underflowLoop_from_zero
    (h : LoopRuns (underflows c) (clampShift c) xfer r a k r' a') :
    c.bottom ∣ r.low → r.range = 0 → False := by
  induction h with
  | exit hc => intro _ h0; simp [underflows, h0] at hc; have := c.bottom_pos; omega
  | again _ _ _ ih =>
    intro hd h0
    refine ih ?_ ?_
    · have : c.N - 2 * c.P ≤ c.N := by omega
      exact dvd_wrap this (by rw [Nat.shiftLeft_eq]; exact Dvd.dvd.mul_right hd _)
    · simp [clampShift, clamp_eq_zero hd, wrap]

/-- The same count for loop 2. -/
theorem underflowLoop_bound_aux
    (h : LoopRuns (underflows c) (clampShift c) xfer r a k r' a') :
   ∀ j, j ≤ c.nchunk - 2 → 2 ^ (j * c.P) ∣ r.low → k + j ≤ c.nchunk - 2 := by
  induction h with
  | exit hc => intro j hj _; omega
  | @again r _ _ _ _ _ _ _ hrun ih =>
    intro j hj d
    rcases Nat.lt_or_ge j (c.nchunk - 2) with h | h
    · have hle : (j+1) * c.P ≤ c.N := by rw [c.N_eq]; exact Nat.mul_le_mul_right _ (by omega)
      have hmul : 2 ^ ((j+1) * c.P) = 2 ^ (j * c.P) * 2 ^ c.P := by rw [← pow_add]; congr 1; ring
      have := ih (j+1) h (dvd_wrap hle (by rw [Nat.shiftLeft_eq, hmul]; exact Nat.mul_dvd_mul_right d _))
      omega
    · have e : j = c.nchunk - 2 := by omega
      have hb : c.bottom ∣ r.low := by rw [c.bottom_eq_pow, c.two_pow_P_pow, ← e]; exact d
      exact (no_underflowLoop_from_zero hrun
        (dvd_wrap (Nat.sub_le _ _) (by rw [Nat.shiftLeft_eq]; exact Dvd.dvd.mul_right hb _))
        (by simp [clampShift, clamp_eq_zero hb, wrap])).elim

/-- A run of loop 2 that ends makes at most NCHUNK - 2 iterations, from any registers (R119). -/
theorem underflowLoop_bound
    (h : LoopRuns (underflows c) (clampShift c) xfer r a k r' a') :
    k ≤ c.nchunk - 2 :=
  underflowLoop_bound_aux h 0 (by omega) (by simp)

/-- A loop with a run does not fault, whatever its transfer does short of faulting. -/
theorem loopWhile_no_fault {α} {cond next} {xfer : RangeState → α → Except Stop α} {fuel r a f}
   (hx : ∀ r a, xfer r a ≠ .error (.fault f)) {k r'}
    (hu : LoopRuns cond next (fun _ (_ : Unit) => .ok ()) r () k r' ()) (hk : k ≤ fuel) :
   loopWhile cond next xfer fuel r a ≠ .error (.fault f) := by
  induction fuel generalizing r a k with
  | zero =>
    obtain rfl : k = 0 := by omega
    cases hu with
    | exit hc => simp [loopWhile, hc]
  | succ fuel ih =>
    cases hu with
    | exit hc => simp [loopWhile, hc]
    | again hc _ hr =>
      simp only [loopWhile, hc, if_true]
      intro h
      rcases bind_eq_error.1 h with h | ⟨a, _, h⟩
      · exact hx _ _ h
      · exact ih hr (by omega) h

/-- RENORM under J does not fault (R119). -/
theorem renorm_no_fault {α} {c : Config} {xfer : RangeState → α → Except Stop α} {r a f} (hp : r.Placed c)
   (hx : ∀ r a, xfer r a ≠ .error (.fault f)) : renorm c xfer r a ≠ .error (.fault f) := by
  obtain ⟨k1, k2, r', ⟨m, u, h1, h2⟩, hk1, hk2, _⟩ := renorm_runs_unit c r hp
  intro h
  rcases bind_eq_error.1 h with h | ⟨x, hx1, h⟩
  · exact loopWhile_no_fault hx h1 (by omega) h
  · obtain ⟨j, _, hj⟩ := loopWhile_eq_ok.1 hx1
    obtain ⟨_, e⟩ := hj.unique h1
    rw [e] at h
    exact loopWhile_no_fault hx h2 (by omega) h

/-- A run with EMIT is a run of the registers alone (R120). -/
theorem LoopRuns.forget_emit {cond next} {c : Config} {r r' : RangeState} {k out out'}
    (h : LoopRuns cond next (emitXfer c) r out k r' out') :
   LoopRuns cond next (fun _ (_ : Unit) => .ok ()) r () k r' () := by
  induction h with
  | exit hc => exact .exit hc
  | again hc _ _ ih => exact .again hc rfl ih

/-- Where the input has a chunk for each iteration, the run goes with CONSUME (R120). -/
theorem LoopRuns.with_consume {c : Config} {inp : List Byte} {cond next} {r r' : RangeState} {k : Nat}
    {u u' : Unit} (h : LoopRuns cond next (fun _ (_ : Unit) => .ok ()) r u k r' u')
   {w : Window} (hl : w.rpos + k * c.cb ≤ inp.length) :
   ∃ w', LoopRuns cond next (consumeXfer c inp) r w k r' w' ∧ w'.rpos = w.rpos + k * c.cb := by
  induction h generalizing w with
  | exit hc => exact ⟨w, .exit hc, by simp⟩
  | @again r _ _ _ _ k hc _ _ ih =>
    have : (k+1) * c.cb = k * c.cb + c.cb := by ring
    have e := consume_eq c (show w.rpos + c.cb ≤ inp.length by omega)
    generalize hq : (⟨_, _⟩ : Window) = q at e
    have hqr : q.rpos = w.rpos + c.cb := by rw [← hq]
    obtain ⟨w', h1, h2⟩ := ih (w := q) (by omega)
    exact ⟨w', .again hc e h1, by omega⟩

/-- Where it has not, the loop is refused (R54). -/
theorem loopWhile_underruns {c : Config} {inp : List Byte} {cond next} {r r' : RangeState} {k : Nat}
    {u u' : Unit} (h : LoopRuns cond next (fun _ (_ : Unit) => .ok ()) r u k r' u')
   {w : Window} {fuel : Nat} (hf : k ≤ fuel) (hl : inp.length < w.rpos + k * c.cb) (hw : w.rpos ≤ inp.length) :
   loopWhile cond next (consumeXfer c inp) fuel r w = .error (.refuse .streamUnderrun) := by
  induction h generalizing w fuel with
  | exit => omega
  | @again r _ _ _ _ k hc _ _ ih =>
    obtain ⟨f, rfl⟩ : ∃ f, fuel = f + 1 := ⟨fuel - 1, by omega⟩
    simp only [loopWhile, hc, if_true]
    by_cases hl2 : w.rpos + c.cb ≤ inp.length
    · rw [consumeXfer, consume_eq c hl2]
      have : (k+1) * c.cb = k * c.cb + c.cb := by ring
      exact ih (by omega) (by dsimp only; omega) hl2
    · rw [consumeXfer, consume_underrun c (by omega)]; rfl

/-- What EMIT appends does not depend on what was sent before (R53). -/
theorem emit_append (c : Config) (low : Nat) (out : List Byte) : emit c low out = out ++ emit c low [] := by
  simp [emit, outAppend]

/-- The same of a loop of RENORM. -/
theorem loopWhile_emit (c : Config) {cond : RangeState → Bool} {next : RangeState → RangeState} (fuel : Nat)
    (r : RangeState) (out : List Byte) :
    loopWhile cond next (emitXfer c) fuel r out =
      loopWhile cond next (emitXfer c) fuel r [] >>= fun x => pure (x.1, out ++ x.2) := by
  induction fuel generalizing r out with
  | zero => cases h : cond r <;> simp [loopWhile, h, pure, Except.pure]
  | succ fuel ih =>
    cases h : cond r
    · simp [loopWhile, h, pure, Except.pure]
    · have hs : ∀ o, loopWhile cond next (emitXfer c) (fuel + 1) r o =
          loopWhile cond next (emitXfer c) fuel (next r) (emit c r.low o) := fun o => by
        simp only [loopWhile, h, if_true]; rfl
      rw [hs, hs, ih _ (emit c r.low out), ih _ (emit c r.low []), emit_append c r.low out, bind_assoc]
      simp only [pure_bind, List.append_assoc]

/-- The same of RENORM. -/
theorem renorm_emit (c : Config) (r : RangeState) (out : List Byte) :
    renorm c (emitXfer c) r out = renorm c (emitXfer c) r [] >>= fun x => pure (x.1, out ++ x.2) := by
  have hb : ∀ o, renorm c (emitXfer c) r o = loopWhile (topAgrees c) (shiftBoth c) (emitXfer c) c.nchunk r o >>= fun x =>
      loopWhile (underflows c) (clampShift c) (emitXfer c) c.nchunk x.1 x.2 := fun _ => rfl
  rw [hb, hb, loopWhile_emit c _ r out]
  simp only [bind_assoc, pure_bind]
  congr 1
  funext x
  rw [loopWhile_emit c _ x.1 (out ++ x.2), loopWhile_emit c _ x.1 x.2, bind_assoc]
  simp only [pure_bind, List.append_assoc]

/-- The same of the flush (R134). -/
theorem flush_emit (c : Config) (m low : Nat) (out : List Byte) :
    flush c m low out = ((flush c m low []).1, out ++ (flush c m low []).2) := by
  induction m generalizing low out with
  | zero => simp [flush]
  | succ m ih =>
    rw [flush, flush, ih _ (emit c low out), ih _ (emit c low []), emit_append c low out, List.append_assoc]

end Sys2Proof.Machine
end

