-- ==== Sys2Proof/Laws/PerInstr.lean ====
section
/-!
SUPPORT. What holds of every command, one lemma per command.
-/

namespace Sys2Proof.Laws.CwFields

open Sys2Proof Sys2Proof.Machine

/-- The word a command is presented with has `rsv = 0`, the `unit` bit of the unit the command belongs to, and an `fn`
that is not the reserved 3 (R86). -/
def Statement (i : Instr) : Prop :=
  cwRsv (encode i).cw = 0#5 ∧ cwUnit (encode i).cw = unitOf i ∧ cwFn (encode i).cw ≠ 3#2

theorem encStart : Statement .encStart := by unfold Statement; decide

theorem encode (t : Table) (index : Nat) : Statement (.encode t index) := by
  simp [Statement, Sys2Proof.encode, packCw, cwRsv, cwUnit, cwFn, unitOf]

theorem encFinish : Statement .encFinish := by unfold Statement; decide

theorem decStart : Statement .decStart := by unfold Statement; decide

theorem decode (t : Table) : Statement (.decode t) := by
  simp [Statement, Sys2Proof.encode, packCw, cwRsv, cwUnit, cwFn, unitOf]

theorem decFinish : Statement .decFinish := by unfold Statement; decide

end Sys2Proof.Laws.CwFields
end

