-- ==== Sys2Proof/Laws/Units.lean ====
section
/-!
SUPPORT. What the two units' commands rest on: the flush and the priming, the bytes of a chunk, the target and the index
DECODE finds, and each command as a function of its own unit.
-/

namespace Sys2Proof.Machine

/-- The Range State RESET leaves meets R34. -/
theorem settled_fresh (c : Config) : (RangeState.mk 0 c.mask).Settled c := by
  have := c.mask_eq
  have := c.two_top_le
  have := c.two_bottom_le_top
  have := c.bottom_pos
  refine ⟨⟨?_, ?_, ?_⟩, ?_, ?_⟩ <;> dsimp only <;> omega

/-- The flush appends one chunk an iteration and takes nothing back (R134). -/
theorem flush_out (c : Config) (m low : Nat) (out) :
    (flush c m low out).2.length = out.length + m * c.cb ∧ out <+: (flush c m low out).2 := by
  induction m generalizing low out with
  | zero => simp [flush]
  | succ m ih =>
    rw [flush, (ih _ _).1, emit_length]
    exact ⟨by ring, List.IsPrefix.trans ⟨_, (emit_eq c _ _).symm⟩ (ih _ _).2⟩

/-- The flush leaves `low = 0` (R134). -/
theorem flush_low_eq_zero (c : Config) (low : Nat) (out) : (flush c c.nchunk low out).1 = 0 := by
  have h3 := c.nchunk_ge
  obtain ⟨m, hm⟩ : ∃ m, c.nchunk = m + 1 := ⟨c.nchunk - 1, by omega⟩
  rw [hm, flush, flush_eq c _ _ (by omega) _ (wrap_lt _ _)]
  simp only [wrap, Nat.shiftLeft_eq, Nat.mod_mul_mod]
  rw [Nat.mul_assoc, ← pow_add]
  have : c.P + m * c.P = c.N := by rw [c.N_eq, hm]; ring
  rw [this, Nat.mul_mod_left]

/-- Priming keeps `rpos` a multiple of CB inside the input and `code` an N-bit value (R151). -/
theorem prime_keeps {c : Config} {inp : List Byte} {m : Nat} {w w' : Window} (h : prime c inp m w = .ok w')
    (h1 : w.rpos % c.cb = 0) (h2 : w.code < 2^c.N) (h3 : w.rpos ≤ inp.length) :
   w'.rpos % c.cb = 0 ∧ w'.code < 2^c.N ∧ w'.rpos ≤ inp.length := by
  induction m generalizing w with
  | zero => cases h; exact ⟨h1, h2, h3⟩
  | succ m ih =>
    obtain ⟨a, ha, hb⟩ := bind_eq_ok.1 h
    obtain ⟨q1, q2, q3⟩ := consume_eq_ok ha
    exact ih hb (by rw [q2]; simp [h1]) q3 (by omega)

/-- Priming from too short an input is refused (R151, R54). -/
theorem prime_underruns (c : Config) (inp : List Byte) (m : Nat) (w : Window) (hm : 0 < m)
    (h : inp.length < w.rpos + m * c.cb) :
   prime c inp m w = .error (.refuse .streamUnderrun) := by
  induction m generalizing w with
  | zero => omega
  | succ m ih =>
    rw [prime]
    by_cases hl : w.rpos + c.cb ≤ inp.length
    · rw [consume_eq c hl]
      have : (m+1) * c.cb = m * c.cb + c.cb := by ring
      have hm : 0 < m := by
        rcases Nat.eq_zero_or_pos m with rfl | h'
        · omega
        · exact h'
      exact ih _ hm (by dsimp only; omega)
    · rw [consume_underrun c (by omega)]; rfl

/-- Joining a concatenation. -/
theorem joinBytes_concat (a b : List Byte) : joinBytes (a ++ b) = joinBytes a * 256 ^ b.length + joinBytes b := by
  induction b using List.reverseRecOn with
  | nil => simp [joinBytes]
  | append_singleton b x ih =>
    rw [← List.append_assoc, joinBytes_append, joinBytes_append, ih]
    simp [pow_succ]; ring

/-- The bytes of a joined number are the bytes that were joined (R82). -/
theorem byteAt_joinBytes (m : Nat) (bs : List Byte) (hl : bs.length = m) (j : Nat) (hj : j < m) :
   byteAt (joinBytes bs) (8 * (m - 1 - j)) = bs[j]'(by omega) := by
  induction bs using List.reverseRecOn generalizing m j with
  | nil => simp at hl; omega
  | append_singleton bs b ih =>
    simp at hl
    subst hl
    apply BitVec.eq_of_toNat_eq
    rw [byteAt_toNat, joinBytes_append]
    have hb : b.toNat < 256 := b.isLt
    rcases Nat.lt_or_ge j bs.length with h | h
    · have e := ih bs.length rfl j h
      rw [List.getElem_append_left h, ← e, byteAt_toNat]
      have : 8 * (bs.length + 1 - 1 - j) = 8 + 8 * (bs.length - 1 - j) := by omega
      rw [this, pow_add, ← Nat.div_div_eq_div_mul]
      congr 2
      omega
    · have : j = bs.length := by omega
      subst this
      simp
      omega

/-- The subtraction of R121 in exact integers. -/
theorem subWrap_eq (N a b : Nat) (hb : b < 2 ^ N) : subWrap N a b = (a + (2 ^ N - b)) % 2 ^ N := by
  rw [subWrap, neg, wrap_of_lt hb, wrap, Nat.add_mod_mod]

/-- A well-formed table has one index for a target. -/
theorem found_unique {t : Table} {T i j : Nat} (h1 : Found t T i) (h2 : Found t T j) : i = j := by
  obtain ⟨a1, a2, a3⟩ := h1
  obtain ⟨b1, b2, b3⟩ := h2
  rcases Nat.lt_trichotomy i j with h | h | h
  · have := b2 i h
    rcases a3 with a3 | a3 <;> omega
  · exact h
  · have := a2 j h
    rcases b3 with b3 | b3 <;> omega

/-- Where `code` lies in the sub-interval of symbol `i`, the target is exact and SEARCH returns `i` (R155). -/
theorem decode_finds {c : Config} {r : RangeState} {t : Table} {i code : Nat} (hs : r.Settled c)
    (hw : tableWF c t = true) (hi : i < t.n)
   (h1 : (placedAt t i r).low ≤ code) (h2 : code < (placedAt t i r).low + (placedAt t i r).range) :
    targetOf c (scale (cumAt t (t.n - 1)) r) code = .ok ((code - r.low) / (r.range / cumAt t (t.n - 1))) ∧
   search t.n t.countCum ((code - r.low) / (r.range / cumAt t (t.n - 1))) = .ok i := by
  have hu := unitWidth_pos hw hs
  have hin := placedAt_inside hw hi r
  have hl := hs.1.low_lt
  have hN := hs.1.2.1
  have hge : r.low ≤ (placedAt t i r).low := Nat.le_add_right _ _
  constructor
  · rw [targetOf, if_neg (by simp only [scale]; omega), scale, subWrap_eq _ _ _ hl]
    congr 2
    have : code + (2 ^ c.N - r.low) = code - r.low + 2 ^ c.N := by omega
    rw [this, Nat.add_mod_right, Nat.mod_eq_of_lt (by omega)]
  · have hc := cumLo_add_countAt hw hi
    simp only [placedAt] at h1 h2
    generalize hU : r.range / cumAt t (t.n - 1) = u at *
    have hd1 : cumLo t i ≤ (code - r.low) / u := (Nat.le_div_iff_mul_le hu).2 (by rw [Nat.mul_comm]; omega)
    have hd2 : (code - r.low) / u < cumAt t i := by
      rw [Nat.div_lt_iff_lt_mul hu, ← hc, Nat.mul_comm, Nat.mul_add]; omega
    obtain ⟨j, hj, hjn, hlo, hhi⟩ := search_spec hw ((code - r.low) / u)
    rw [hj]
    congr 1
    rcases Nat.lt_trichotomy j i with h | h | h
    · rcases hhi with hhi | hhi
      · omega
      · have : cumLo t i = cumAt t (i - 1) := by simp [cumLo, show i > 0 by omega]
        have := cumAt_mono hw (show j ≤ i - 1 by omega) (by omega)
        omega
    · exact h
    · have := hlo i h
      omega

/-- The loop of SEARCH ends inside its bounds whatever the array (R173). -/
theorem searchLoop_total (cc : List Nat) (target fuel left right : Nat)
    (h1 : left ≤ right) (h2 : right < cc.length) (hf : right - left ≤ fuel) :
   ∃ i, searchLoop cc target fuel left right = .ok i ∧ i ≤ right := by
  induction fuel generalizing left right with
  | zero => exact ⟨left, rfl, h1⟩
  | succ f ih =>
    by_cases h : left < right
    · have hr : tabRead cc ((left + right)/2) = .ok cc[(left+right)/2] := by
        simp [tabRead, show (left+right)/2 < cc.length by omega]
      simp only [searchLoop, h, if_true, hr, Except.bind]
      split
      · exact ih _ _ (by omega) h2 (by omega)
      · obtain ⟨i, h3, h4⟩ := ih left ((left+right)/2) (by omega) (by omega) (by omega)
        exact ⟨i, h3, by omega⟩
    · exact ⟨left, by simp [searchLoop, h], h1⟩

/-- A command of ENC is a function of the configuration and ENC, with the bytes it appends (R137, R53). -/
theorem encoder_factors {i : Instr} (h : unitOf i = .enc) :
    ∃ F : Config → Enc → Except Stop (Enc × List Byte),
      ∀ s, exec i s = finish (F s.cfg s.enc >>= fun y => pure (s.withEnc y.1 (s.out ++ y.2))) := by
  cases i with
  | encStart => exact ⟨fun _ e => do
    unmarked e.mark
    require e.phase.mayStart .badPhase
    return ({ e with phase := .primed }, []), fun s => by
      simp only [exec, execEncStart, bind_assoc, pure_bind, List.append_nil]⟩
  | encode t index => exact ⟨fun c e => do
    unmarked e.mark
    require e.phase.mayCode .badPhase
    require (c.admits t.n) .badTable
    require (decide (index < t.n)) .badIndex
    require (tableWF c t) .badTable
    let total ← readTotal t
    let lo ← readCumLo t index
    let cnt ← readCount t index
    let x ← renorm c (emitXfer c) (narrow c total lo cnt e.toRangeState) []
    return ({ e with toRangeState := x.1, phase := .coding }, x.2), fun s => by
      simp only [exec, execEncode, bind_assoc, pure_bind]
      simp only [renorm_emit s.cfg _ s.out, bind_assoc, pure_bind]⟩
  | encFinish => exact ⟨fun c e => do
    unmarked e.mark
    require e.phase.mayCode .badPhase
    let x := flush c c.nchunk e.low []
    return ({ e with low := x.1, phase := .finalized }, x.2), fun s => by
      simp only [exec, execEncFinish, bind_assoc, pure_bind]
      simp only [flush_emit s.cfg _ _ s.out]⟩
  | decStart => cases h
  | decode => cases h
  | decFinish => cases h

/-- A command of DEC is a function of the configuration, DEC and the input, with the indices it returns (R193). -/
theorem decoder_factors {i : Instr} (h : unitOf i = .dec) :
    ∃ F : Config → Dec → List Byte → Except Stop (Dec × List Nat),
      ∀ s, exec i s = finish (F s.cfg s.dec s.inp >>= fun y => pure (s.withDec y.1 (s.results ++ y.2))) := by
  cases i with
  | decStart => exact ⟨fun c e inp => do
    unmarked e.mark
    require e.phase.mayStart .badPhase
    let w ← prime c inp c.nchunk { code := 0, rpos := 0 }
    return ({ e with toWindow := w, phase := .primed }, []), fun s => by
      simp only [exec, execDecStart, bind_assoc, pure_bind, List.append_nil]⟩
  | decode t => exact ⟨fun c e inp => do
    unmarked e.mark
    require e.phase.mayCode .badPhase
    require (c.admits t.n) .badTable
    require (tableWF c t) .badTable
    let total ← readTotal t
    let r := scale total e.toRangeState
    let target ← targetOf c r e.code
    let i ← search t.n t.countCum target
    let lo ← readCumLo t i
    let cnt ← readCount t i
    let x ← renorm c (consumeXfer c inp) (place c lo cnt r) e.toWindow
    return ({ e with toRangeState := x.1, toWindow := x.2, phase := .coding }, [i]), fun s => by
      simp only [exec, execDecode, bind_assoc, pure_bind]⟩
  | decFinish => exact ⟨fun _ e _ => do
    unmarked e.mark
    require e.phase.mayCode .badPhase
    return ({ e with phase := .finalized }, []), fun s => by
      simp only [exec, execDecFinish, bind_assoc, pure_bind, List.append_nil]⟩
  | encStart => cases h
  | encode => cases h
  | encFinish => cases h

/-- A command of ENC writes ENC and `out` only (R25). -/
theorem exec_enc_writes {i s t} (hi : unitOf i = .enc) (h : exec i s = .next t) : ∃ e o, t = s.withEnc e o := by
  obtain ⟨F, hF⟩ := encoder_factors hi
  rw [hF, finish_eq_next, do_bind_eq_ok] at h
  obtain ⟨x, _, h⟩ := h
  cases h; exact ⟨_, _, rfl⟩

/-- A command of DEC writes DEC and its results only (R25). -/
theorem exec_dec_writes {i s t} (hi : unitOf i = .dec) (h : exec i s = .next t) : ∃ e o, t = s.withDec e o := by
  obtain ⟨F, hF⟩ := decoder_factors hi
  rw [hF, finish_eq_next, do_bind_eq_ok] at h
  obtain ⟨x, _, h⟩ := h
  cases h; exact ⟨_, _, rfl⟩

/-- A marked unit refuses its commands with the reason it bears (R184). -/
theorem exec_marked {i s r} (h : markOf (unitOf i) s = some r) : exec i s = .refused r := by
  cases i <;> simp only [unitOf, markOf] at h <;>
    simp [exec, execEncStart, execEncode, execEncFinish, execDecStart, execDecode, execDecFinish, h, finish]

/-- A run of `a` steps followed by one of `b`. -/
theorem runSteps_add (a b : Nat) (s t : State) (h : runSteps a s = .next t) : runSteps (a + b) s = runSteps b t := by
  induction a generalizing s with
  | zero => cases h; simp
  | succ a ih =>
    rw [Nat.add_right_comm, runSteps]
    rw [runSteps] at h
    cases hs : step s with
    | next u => rw [hs] at h; exact ih u h
    | fault f => rw [hs] at h; cases h
    | refused f => rw [hs] at h; cases h

end Sys2Proof.Machine
end

