-- ==== Sys2Proof/Tests/Slice0.lean ====
section
/-!
SUPPORT. The model's own tests. Expected results come from the spec: the words of the command map (R86, R88), the vectors
V<n> and programs P<n> of 95_test_vectors.md and the examples of the rules. Then, for every statement with hypotheses, a
concrete state and operands that meet them all.
-/

namespace Sys2Proof.Tests

open Sys2Proof Sys2Proof.Machine

/-! ### Small states -/

/-- N = 24, P = 8, big: the smallest configuration (R8). -/
def c24 : Config := ⟨24, 8, .big, none, by decide⟩

/-- N = 48, P = 16, little (P3). -/
def c48 : Config := ⟨48, 16, .little, none, by decide⟩

/-- N = 24, P = 8 with NSYM_MAX = 2. -/
def c24small : Config := ⟨24, 8, .big, some 2, by decide⟩

/-- T of 2.6. -/
def tabT : Table := ⟨3, [2, 1, 1], [2, 3, 4]⟩

/-- U of 2.6: the total is BOTTOM. -/
def tabU : Table := ⟨3, [200, 55, 1], [200, 255, 256]⟩

/-- A block whose ENC is in this state. -/
def encAt (c : Config) (phase : Phase) (low range : Nat) (out : List Byte) : State :=
  (State.fresh c [] []).withEnc { low := low, range := range, phase := phase, mark := none } out

/-- A block whose DEC is in this state. -/
def decAt (c : Config) (phase : Phase) (low range code rpos : Nat) (inp : List Byte) : State :=
  (State.fresh c inp []).withDec
    { low := low, range := range, code := code, rpos := rpos, phase := phase, mark := none } []

/-- The outcome is a next state with this property. -/
def nextHas (p : State → Bool) : Host.Outcome State Fault Refusal → Bool
  | .next s => p s
  | .fault _ => false
  | .refused _ => false

/-- The outcome is this refusal. -/
def refusedWith (r : Refusal) : Host.Outcome State Fault Refusal → Bool
  | .next _ => false
  | .fault _ => false
  | .refused q => r == q

/-- The property "ENC has this phase, `low` and `range`, and `out` is this". -/
def encIs (phase : Phase) (low range : Nat) (out : List Byte) (s : State) : Bool :=
  s.enc.phase == phase && s.enc.low == low && s.enc.range == range && s.out == out

/-- The property "DEC has this phase, `low`, `range`, `code` and `rpos`, and returned these indices". -/
def decIs (phase : Phase) (low range code rpos : Nat) (results : List Nat) (s : State) : Bool :=
  s.dec.phase == phase && s.dec.low == low && s.dec.range == range && s.dec.code == code && s.dec.rpos == rpos
    && s.results == results

/-! ### WellFormed refuses what cannot be presented -/

theorem test_wf_accepts : (Instr.encode tabT 0).wf c24 = true ∧ (Instr.decode tabT).wf c24 = true := by decide

theorem test_wf_count_length : (Instr.encode ⟨3, [2, 1], [2, 3, 4]⟩ 0).wf c24 = false := by decide

theorem test_wf_countCum_length : (Instr.decode ⟨3, [2, 1, 1], [2, 3, 4, 5]⟩).wf c24 = false := by decide

theorem test_wf_count_width : (Instr.decode ⟨1, [0x1000000], [1]⟩).wf c24 = false := by decide

theorem test_wf_countCum_width : (Instr.encode ⟨1, [1], [0x1000000]⟩ 0).wf c24 = false := by decide

/-! ### Decoding: words written out from R86, bits 7..3 rsv, 2 unit, 1..0 fn -/

theorem test_decode_encStart : decodeTableWord 8 0b00000_0_00 = some .encStart := by decide

theorem test_decode_encode : decodeTableWord 8 0b00000_0_01 = some (.encode ⟨0, [], []⟩ 0) := by decide

theorem test_decode_encFinish : decodeTableWord 8 0b00000_0_10 = some .encFinish := by decide

theorem test_decode_decStart : decodeTableWord 8 0b00000_1_00 = some .decStart := by decide

theorem test_decode_decode : decodeTableWord 8 0b00000_1_01 = some (.decode ⟨0, [], []⟩) := by decide

theorem test_decode_decFinish : decodeTableWord 8 0b00000_1_10 = some .decFinish := by decide

theorem test_decode_reserved : decodeTableWord 8 0b00000_0_11 = none ∧ decodeTableWord 8 0b00000_1_11 = none ∧
    decodeTableWord 8 0b00001_0_00 = none ∧ decodeTableWord 8 0xFF = none ∧ decodeTableWord 16 0 = none := by decide

/-- The operands come from the ports (R87). -/
theorem test_decode_operands : decode ⟨0x01#8, ⟨3, [2, 1, 1], [2, 3, 4], 2⟩⟩ = .ok (.encode tabT 2) := by rfl

/-- The host's word is presented next and the step runs it. -/
theorem test_fetch_word : nextHas (fun s => s.enc.phase == .primed && s.pending == [])
    (step (State.reset.withFetchWord 8 0x00)) = true := by decide

/-! ### The procedures -/

/-- V11 to V15. -/
theorem test_chunk_bytes : chunkBytes c48 0xABCD = [0xCD#8, 0xAB#8] ∧
    chunkBytes ⟨96, 32, .big, none, by decide⟩ 0x01020304 = [1#8, 2#8, 3#8, 4#8] ∧
    bytesChunk ⟨72, 24, .little, none, by decide⟩ [0xEF#8, 0xCD#8, 0xAB#8] = 0xABCDEF := by decide

/-- V40 to V46, the tie-break among them (R175). -/
theorem test_search : [0, 1, 2, 3, 4, 100].map (search 3 [2, 3, 4]) =
    [.ok 0, .ok 0, .ok 1, .ok 2, .ok 2, .ok 2] ∧ search 1 [7] 99 = .ok 0 := by decide

/-- V52 and V54: loop 1. -/
theorem test_renorm_loop1 : renorm c24 (emitXfer c24) ⟨0x123456, 0x000100⟩ [] = .ok (⟨0x345600, 0x010000⟩, [0x12#8]) ∧
    renorm c24 (emitXfer c24) ⟨0xABCDEF, 1⟩ [] = .ok (⟨0xEF0000, 0x010000⟩, [0xAB#8, 0xCD#8]) := by decide

/-- V53 and V60: loop 2, whose first iteration may lower `range`. -/
theorem test_renorm_loop2 : renorm c24 (emitXfer c24) ⟨0x12FFF0, 0x000020⟩ [] = .ok (⟨0xFFF000, 0x001000⟩, [0x12#8]) ∧
    renorm ⟨32, 8, .big, none, by decide⟩ (emitXfer ⟨32, 8, .big, none, by decide⟩) ⟨0x12FFFFFF, 0x0000FFFE⟩ [] =
      .ok (⟨0xFFFF0000, 0x00010000⟩, [0x12#8, 0xFF#8]) := by decide

/-! ### One step of each command, from the vectors -/

/-- V90. -/
theorem test_encStart : nextHas (encIs .primed 0 0xFFFFFF []) (exec .encStart (State.fresh c24 [] [])) = true := by decide

/-- V132: a second start. -/
theorem test_encStart_twice :
    refusedWith .badPhase (exec .encStart (encAt c24 .primed 0 0xFFFFFF [])) = true := by decide

/-- V97: loop 1. -/
theorem test_encode_top : nextHas (encIs .coding 0xFD0200 0x00FF00 [0xFF#8])
    (exec (.encode tabU 2) (encAt c24 .coding 0xFEFF01 0x00FFFF [])) = true := by decide

/-- V98: loop 2. -/
theorem test_encode_underflow : nextHas (encIs .coding 0xFF0100 0x00FF00 [0x00#8])
    (exec (.encode tabU 2) (encAt c24 .coding 0x000100 0x00FF00 [])) = true := by decide

/-- V96. -/
theorem test_encFinish : nextHas (encIs .finalized 0 0x2ACD08 [0xFF#8, 0xFE#8, 0x00#8, 0xFF#8, 0x9C#8, 0xA3#8, 0xC0#8])
    (exec .encFinish (encAt c24 .coding 0x9CA3C0 0x2ACD08 [0xFF#8, 0xFE#8, 0x00#8, 0xFF#8])) = true := by decide

/-- V99: each chunk with its low byte first, the chunks most significant first. -/
theorem test_encFinish_little : nextHas (fun s => s.out == [0xFD#8, 0xEF#8, 0x00#8, 0xD0#8, 0x00#8, 0x40#8])
    (exec .encFinish (encAt c48 .coding 0xEFFDD0004000 0x0FFFEFFFC000 [])) = true := by decide

/-- V110. -/
theorem test_decStart : nextHas (decIs .primed 0 0xFFFFFF 0x7FFFFE 3 [])
    (exec .decStart (State.fresh c24 [0x7F#8, 0xFF#8, 0xFE#8] [])) = true := by decide

/-- V118: two bytes are too few. -/
theorem test_decStart_underrun :
    refusedWith .streamUnderrun (exec .decStart (State.fresh c24 [0x7F#8, 0xFF#8] [])) = true := by decide

/-- P2, decoder step 5: the underflow loop takes one chunk in. -/
theorem test_decode_underflow : nextHas (decIs .coding 0xFF0100 0x00FF00 0xFF9CA3 6 [2])
    (exec (.decode tabU) (decAt c24 .coding 0x000100 0x00FF00 0x00FF9C 5
      [0xFF#8, 0xFE#8, 0x00#8, 0xFF#8, 0x9C#8, 0xA3#8, 0xC0#8])) = true := by decide

/-- V115: a target above the total gives the last index. -/
theorem test_decode_no_match : nextHas (decIs .coding 0xBFFFFD 0x3FFFFF 0xFFFFFF 3 [2])
    (exec (.decode tabT) (decAt c24 .primed 0 0xFFFFFF 0xFFFFFF 3 [0xFF#8, 0xFF#8, 0xFF#8, 0x12#8, 0x34#8])) = true := by
  decide

/-- V117. -/
theorem test_decFinish : nextHas (decIs .finalized 1 0x200 3 4 [])
    (exec .decFinish (decAt c24 .coding 1 0x200 3 4 [])) = true := by decide

/-- V137: a finish before the start. -/
theorem test_decFinish_early : refusedWith .badPhase (exec .decFinish (State.fresh c24 [] [])) = true := by decide

/-- V151 and V152: a refused ENC command marks ENC, a later one is refused too, and DEC goes on (P6). -/
theorem test_mark : (fun s => s.enc.mark == some .badPhase && refusedWith .badPhase (exec .encStart s)
      && nextHas (fun t => t.dec.phase == .primed) (exec .decStart s))
    (advance (State.fresh c24 [0x7F#8, 0xFF#8, 0xFE#8] [presents (.encode tabT 0)])) = true := by decide

/-! ### Witnesses: the hypotheses of each statement are met together

Each theorem names its statement and gives a state and operands that meet its hypotheses; where a statement has several
clauses, each clause has one, at the ends of its range. -/

/-- A block whose host presents this move next. -/
def withMove (m : HostMove) (s : State) : State := s.withPending [m]

theorem witness_CommandMapHasSixWords : decode ⟨0x06#8, Ports.idle⟩ = .ok .decFinish := by rfl

theorem witness_ReservedWordsAreRefused :
    (∀ w ∈ [0x03#8, 0x07#8, 0x08#8, 0xFF#8], (withMove (.command ⟨w, Ports.idle⟩) State.reset).pending =
      [.command ⟨w, Ports.idle⟩] ∧ (w = 0x03#8 ∨ w = 0x07#8 ∨ 0x08#8 ≤ w)) := by decide

theorem witness_DecodeEncodeAgree : decode ⟨0x05#8, ⟨3, [2, 1, 1], [2, 3, 4], 7⟩⟩ = .ok (.decode tabT) := by rfl

theorem witness_StepRunsThePresentedCommand :
    (withMove (presents .encStart) State.reset).pending = [.command ⟨0x00#8, Ports.idle⟩] ∧
    decode ⟨0x00#8, Ports.idle⟩ = .ok .encStart ∧ State.reset.pending = [] := ⟨rfl, rfl, rfl⟩

theorem witness_ResetLeavesTheStatedValues : (withMove .reset (encAt c24 .coding 1 0x200 [7#8])).pending = [.reset] ∧
    (withMove .resetEnc State.reset).pending = [.resetEnc] ∧ (withMove .resetDec State.reset).pending = [.resetDec] :=
  ⟨rfl, rfl, rfl⟩

/-- DEC of a fresh block of the smallest configuration meets its invariant. -/
theorem fresh24_dec_inv : (Dec.fresh c24).Inv c24 [] := by
  unfold Dec.Inv RangeState.Settled RangeState.Placed; decide

/-- A state of the invariant in which ENC is coding (V98's). -/
theorem coding_inv : (encAt c24 .coding 0x000100 0x00FF00 []).Inv :=
  ⟨fun _ => by unfold Enc.Inv RangeState.Settled RangeState.Placed; decide, fun _ => fresh24_dec_inv⟩

theorem witness_EveryStepKeepsTheInvariant :
    (encAt c24 .coding 0x000100 0x00FF00 []).Inv ∧
    ∃ t, step (withMove (presents (.encode tabU 2)) (encAt c24 .coding 0x000100 0x00FF00 [])) = .next t :=
  ⟨coding_inv, _, rfl⟩

theorem witness_AdvanceKeepsTheInvariant : (encAt c24 .coding 0x000100 0x00FF00 []).Inv := coding_inv

theorem witness_NoStepFaults : (encAt c24 .coding 0x000100 0x00FF00 []).Inv := coding_inv

theorem witness_ConfigurationNeverChanges : ∃ t, step (withMove .reset State.reset) = .next t := ⟨_, rfl⟩

theorem witness_EncStartPrimes : State.reset.enc.mark = none ∧ State.reset.enc.phase = .created ∧
    ∀ p ∈ [Phase.primed, .coding, .finalized],
      (encAt c24 p 0 0xFFFFFF []).enc.mark = none ∧ (encAt c24 p 0 0xFFFFFF []).enc.phase ≠ .created := by decide

theorem witness_EncodeCompletes : ∀ s ∈ [encAt c24 .primed 0 0xFFFFFF [], encAt c24 .coding 0x000100 0x00FF00 []],
    s.enc.mark = none ∧ (s.enc.phase = .primed ∨ s.enc.phase = .coding) ∧ s.cfg.admits tabU.n = true ∧ 2 < tabU.n ∧
    tableWF s.cfg tabU = true ∧ s.enc.toRangeState.Settled s.cfg := by
  unfold RangeState.Settled RangeState.Placed; decide

theorem witness_EncodeRefusalsInOrder :
    ((State.fresh c24 [] []).enc.mark = none ∧ (State.fresh c24 [] []).enc.phase ≠ .primed ∧
      (State.fresh c24 [] []).enc.phase ≠ .coding) ∧
    (encAt c24 .primed 0 0xFFFFFF []).enc.phase = .primed ∧ c24.admits 0 = false ∧ c24small.admits 3 = false ∧
    (c24.admits tabT.n = true ∧ tabT.n ≤ 3) ∧
    (c24.admits 3 = true ∧ 2 < 3 ∧ tableWF c24 ⟨3, [200, 56, 1], [200, 256, 257]⟩ = false) := by decide

theorem witness_EncFinishFlushesLow : ∀ s ∈ [encAt c24 .primed 0 0xFFFFFF [], encAt c24 .coding 1 0x200 []],
    s.enc.mark = none ∧ (s.enc.phase = .primed ∨ s.enc.phase = .coding) ∧
    ((State.fresh c24 [] []).enc.phase = .created ∧ (encAt c24 .finalized 0 0x200 []).enc.phase = .finalized) := by decide

theorem witness_EncFinishBigEndian : c24.order = .big ∧ (encAt c24 .coding 0x9CA3C0 0x2ACD08 []).enc.low < 2 ^ c24.N ∧
    ∃ t, exec .encFinish (encAt c24 .coding 0x9CA3C0 0x2ACD08 []) = .next t := ⟨rfl, by decide, _, rfl⟩

theorem witness_EmitAppendsTheTopChunk : 0xFFFFFF < 2 ^ c24.N := by decide

theorem witness_DecStartPrimes : (State.fresh c24 [0x7F#8, 0xFF#8, 0xFE#8] []).dec.mark = none ∧
    (State.fresh c24 [0x7F#8, 0xFF#8, 0xFE#8] []).dec.phase = .created ∧
    c24.N / 8 ≤ (State.fresh c24 [0x7F#8, 0xFF#8, 0xFE#8] []).inp.length ∧
    (State.fresh c24 [0x7F#8, 0xFF#8] []).dec.mark = none ∧ (State.fresh c24 [0x7F#8, 0xFF#8] []).dec.phase = .created ∧
    (State.fresh c24 [0x7F#8, 0xFF#8] []).inp.length < c24.N / 8 ∧
    (decAt c24 .finalized 0 0x200 0 3 []).dec.phase ≠ .created := by decide

theorem witness_ConsumeTakesOneChunk :
    (Window.mk 0x7FFFFE 3).rpos + c24.cb ≤ [0x7F#8, 0xFF#8, 0xFE#8, 0xA5#8].length ∧
    [0x7F#8, 0xFF#8, 0xFE#8].length < (Window.mk 0x7FFFFE 3).rpos + c24.cb := by decide

/-- DEC of P2 before step 5, with two bytes more than the stream has. -/
def decWitness : State := decAt c24 .coding 0x000100 0x00FF00 0x00FF9C 5
  [0xFF#8, 0xFE#8, 0x00#8, 0xFF#8, 0x9C#8, 0xA3#8, 0xC0#8, 0x00#8]

theorem witness_DecodeCompletes : decWitness.dec.mark = none ∧
    (decWitness.dec.phase = .primed ∨ decWitness.dec.phase = .coding) ∧ decWitness.cfg.admits tabU.n = true ∧
    tableWF decWitness.cfg tabU = true ∧ decWitness.dec.toRangeState.Settled decWitness.cfg ∧
    decWitness.dec.rpos + (2 * decWitness.cfg.nchunk - 3) * decWitness.cfg.cb ≤ decWitness.inp.length := by
  unfold RangeState.Settled RangeState.Placed; decide

/-- The one iteration of loop 2 that decWitness makes (P2, step 5), with the input one byte longer than needed and one
byte too short. -/
theorem witness_DecodeTakesTheChunksItsRenormNeeds :
    Found tabU (targetAt c24 tabU decWitness.dec) 2 ∧
    RenormRuns c24 (emitXfer c24) (placedAt tabU 2 decWitness.dec.toRangeState) [] 0 1 ⟨0xFF0100, 0x00FF00⟩ [0x00#8] ∧
    decWitness.dec.rpos + (0 + 1) * c24.cb ≤ decWitness.inp.length ∧
    decWitness.dec.rpos ≤ (decWitness.withInp (decWitness.inp.take 5)).inp.length ∧
    (decWitness.withInp (decWitness.inp.take 5)).inp.length < decWitness.dec.rpos + (0 + 1) * c24.cb :=
  ⟨by unfold Found; decide, ⟨_, _, .exit rfl, .again rfl rfl (.exit rfl)⟩, by decide, by decide, by decide⟩

theorem witness_DecodeRefusalsInOrder :
    ((State.fresh c24 [] []).dec.mark = none ∧ (State.fresh c24 [] []).dec.phase ≠ .primed ∧
      (State.fresh c24 [] []).dec.phase ≠ .coding) ∧
    decWitness.dec.mark = none ∧ decWitness.dec.phase = .coding ∧ c24.admits 0 = false ∧ c24small.admits 3 = false ∧
    (c24.admits 3 = true ∧ tableWF c24 ⟨3, [2, 0, 2], [2, 2, 4]⟩ = false) := by decide

theorem witness_DecodeReturnsTheSymbolOfTheInterval : decWitness.dec.toRangeState.Settled decWitness.cfg ∧
    tableWF decWitness.cfg tabU = true ∧ 2 < tabU.n ∧
    (placedAt tabU 2 decWitness.dec.toRangeState).low ≤ decWitness.dec.code ∧
    decWitness.dec.code < (placedAt tabU 2 decWitness.dec.toRangeState).low +
      (placedAt tabU 2 decWitness.dec.toRangeState).range ∧
    (∃ u, exec (.decode tabU) decWitness = .next u) ∧
    (encAt c24 .coding 0x000100 0x00FF00 []).cfg = decWitness.cfg ∧
    (encAt c24 .coding 0x000100 0x00FF00 []).enc.toRangeState = decWitness.dec.toRangeState ∧
    ∃ v, exec (.encode tabU 2) (encAt c24 .coding 0x000100 0x00FF00 []) = .next v :=
  ⟨by unfold RangeState.Settled RangeState.Placed; decide, by decide, by decide, by decide, by decide, ⟨_, rfl⟩, rfl, rfl,
    _, rfl⟩

theorem witness_DecFinishEndsTheSession : ∀ s ∈ [decAt c24 .primed 0 0xFFFFFF 0 3 [], decWitness],
    s.dec.mark = none ∧ (s.dec.phase = .primed ∨ s.dec.phase = .coding) ∧
    ((State.fresh c24 [] []).dec.phase = .created ∧ (decAt c24 .finalized 0 0x200 0 3 []).dec.phase = .finalized) := by
  decide

theorem witness_ChunkBytesRoundTrip : 0xFFFF ≤ 2 ^ c48.P - 1 ∧ [0xEF#8, 0xFD#8].length = c48.P / 8 := by decide

theorem witness_ChunkByteOrder : 0 < (chunkBytes c48 0xABCD).length ∧ 1 < (chunkBytes c48 0xABCD).length ∧
    c24.P = 8 ∧ (⟨24, 8, .little, none, by decide⟩ : Config).P = 8 := by decide

theorem witness_NarrowStaysInside : tableWF c24 tabU = true ∧ (RangeState.mk 0xFF0100 0x00FF00).Settled c24 ∧
    0 < tabU.n ∧ 2 < tabU.n ∧ 1 < 2 := by unfold RangeState.Settled RangeState.Placed; decide

theorem witness_TopCheckIteration : (RangeState.mk 0x123456 0x100).Placed c24 ∧
    topAgrees c24 ⟨0x123456, 0x100⟩ = true := by unfold RangeState.Placed; decide

theorem witness_ClampIsTheDistance : 0 < 2 ^ c24.N ∧ 0xFFFFFF < 2 ^ c24.N := by decide

theorem witness_UnderflowIteration : (RangeState.mk 0x12FFF0 0x20).Placed c24 ∧ topAgrees c24 ⟨0x12FFF0, 0x20⟩ = false ∧
    underflows c24 ⟨0x12FFF0, 0x20⟩ = true := by unfold RangeState.Placed; decide

theorem witness_RenormTerminates : (RangeState.mk 0xABFFFF 1).Placed c24 ∧
    RenormRuns c24 (emitXfer c24) ⟨0x123456, 0x100⟩ [] 1 0 ⟨0x345600, 0x10000⟩ [0x12#8] :=
  ⟨by unfold RangeState.Placed; decide, _, _, .again rfl rfl (.exit rfl), .exit rfl⟩

theorem witness_RangeZeroNeverEnds : 0xFFFFFF < 2 ^ c24.N := by decide

theorem witness_RenormReachesAFixedPoint : (RangeState.mk 0x12FFF0 0x20).Placed c24 ∧
    RenormRuns c24 (emitXfer c24) ⟨0x12FFF0, 0x20⟩ [] 0 1 ⟨0xFFF000, 0x1000⟩ [0x12#8] ∧ 0 < 1 :=
  ⟨by unfold RangeState.Placed; decide, ⟨_, _, .exit rfl, .again rfl rfl (.exit rfl)⟩, by decide⟩

theorem witness_OneTransferPerIteration :
    RenormRuns c24 (emitXfer c24) ⟨0x123456, 0x100⟩ [] 1 0 ⟨0x345600, 0x10000⟩ [0x12#8] ∧
    RenormRuns c24 (consumeXfer c24 [0xA5#8]) ⟨0x123456, 0x100⟩ ⟨0x7FFFFE, 0⟩ 1 0 ⟨0x345600, 0x10000⟩ ⟨0xFFFEA5, 1⟩ :=
  ⟨⟨_, _, .again rfl rfl (.exit rfl), .exit rfl⟩, _, _, .again rfl rfl (.exit rfl), .exit rfl⟩

theorem witness_DefaultEncodeAppendsAtMost13Bytes : Config.default.N = 64 ∧ Config.default.P = 8 ∧
    ∃ u, exec (.encode tabT 0) (encAt Config.default .primed 0 (2 ^ 64 - 1) []) = .next u := ⟨rfl, rfl, _, rfl⟩

theorem witness_SingleSymbolEmitsNothing : (encAt c24 .primed 0 0xFFFFFF []).enc.mark = none ∧
    (encAt c24 .primed 0 0xFFFFFF []).enc.phase = .primed ∧ (encAt c24 .primed 0 0xFFFFFF []).enc.low = 0 ∧
    (encAt c24 .primed 0 0xFFFFFF []).enc.range < 2 ^ c24.N ∧ 1 ≤ 10 ∧ 10 ≤ c24.bottom ∧
    c24.top ≤ (encAt c24 .primed 0 0xFFFFFF []).enc.range / 10 * 10 := by decide

theorem witness_SearchFindsTheSmallestIndex :
    (∀ j < 3, ∀ i ≤ j, [2, 3, 4].getD i 0 ≤ [2, 3, 4].getD j 0) ∧ [2, 3, 4] ≠ [] ∧ 3 < [2, 3, 4].getD 2 0 ∧ 2 < 3 ∧
    (0 < 2 → [2, 3, 4].getD (2 - 1) 0 ≤ 3) ∧ 3 < [2, 3, 4].getD 2 0 := by decide

theorem witness_SearchStaysInTheTable :
    (∀ k < 3, ∀ j ≤ k, [2, 3, 4].getD j 0 ≤ [2, 3, 4].getD k 0) ∧ [2, 3, 4] ≠ [] ∧ [2, 3, 4].getD 2 0 ≤ 4 := by decide

theorem witness_WellFormedSumsIncrease : tableWF c24 tabU = true ∧ 0 < 2 ∧ 2 < tabU.n := by decide

theorem witness_PhaseTransitions : (∃ t, exec .encStart State.reset = .next t) ∧ markOf .enc State.reset = none ∧
    transition (.encode tabT 0) (phaseOf .enc State.reset) = none ∧
    (withMove .reset State.reset).pending.head? = some .reset := ⟨⟨_, rfl⟩, rfl, rfl, rfl⟩

theorem witness_EncoderCommandsFrame : (∃ t, exec .encStart State.reset = .next t) ∧
    (∃ t, exec (.encode tabU 2) (encAt c24 .coding 0x000100 0x00FF00 []) = .next t) ∧
    ∃ t, exec .encFinish (encAt c24 .coding 0x000100 0x00FF00 []) = .next t := ⟨⟨_, rfl⟩, ⟨_, rfl⟩, _, rfl⟩

theorem witness_DecoderCommandsFrame :
    (∃ t, exec .decStart (State.fresh c24 [0x7F#8, 0xFF#8, 0xFE#8] []) = .next t) ∧
    (∃ t, exec (.decode tabU) decWitness = .next t) ∧ ∃ t, exec .decFinish decWitness = .next t :=
  ⟨⟨_, rfl⟩, ⟨_, rfl⟩, _, rfl⟩

theorem witness_EncoderDependsOnlyOnItself : unitOf .encStart = .enc ∧
    (encAt c24 .created 0 0xFFFFFF []).cfg = (encAt c24 .created 0 0xFFFFFF [7#8]).cfg ∧
    (encAt c24 .created 0 0xFFFFFF []).enc = (encAt c24 .created 0 0xFFFFFF [7#8]).enc := ⟨rfl, rfl, rfl⟩

theorem witness_DecoderDependsOnlyOnItself : unitOf (.decode tabT) = .dec ∧
    (State.fresh c24 [] []).cfg = (encAt c24 .coding 1 0x200 []).cfg ∧
    (State.fresh c24 [] []).dec = (encAt c24 .coding 1 0x200 []).dec ∧
    (State.fresh c24 [] []).inp = (encAt c24 .coding 1 0x200 []).inp := ⟨rfl, rfl, rfl, rfl⟩

theorem witness_UnitsCommute : unitOf .encStart = .enc ∧ unitOf (.decode tabU) = .dec ∧
    (∃ a, exec .encStart decWitness = .next a) ∧ ∃ b, exec (.decode tabU) decWitness = .next b :=
  ⟨rfl, rfl, ⟨_, rfl⟩, _, rfl⟩

theorem witness_OutOnlyGrows :
    (∃ t, step (withMove (presents .encFinish) (encAt c24 .coding 0x000100 0x00FF00 [7#8])) = .next t) ∧
    (withMove (presents .encFinish) State.reset).pending.head? ≠ some .reset ∧
    (withMove (presents .encFinish) State.reset).pending.head? ≠ some .resetEnc := ⟨⟨_, rfl⟩, by decide, by decide⟩

theorem witness_InputIsConstantInASession : decWitness.dec.phase = .coding ∧
    ∃ t, step (withMove (presents (.decode tabU)) decWitness) = .next t := ⟨rfl, _, rfl⟩

theorem witness_LinkCarriesTheOutput : (withMove .link (encAt c24 .finalized 0 0x200 [7#8])).pending = [.link] ∧
    (encAt c24 .finalized 0 0x200 [7#8]).enc.phase = .finalized ∧ (encAt c24 .finalized 0 0x200 [7#8]).enc.mark = none ∧
    (encAt c24 .finalized 0 0x200 [7#8]).dec.phase ≠ .primed ∧
    (encAt c24 .finalized 0 0x200 [7#8]).dec.phase ≠ .coding ∧ (withMove .link State.reset).pending = [.link] ∧
    State.reset.enc.phase ≠ .finalized ∧ (withMove .link decWitness).dec.phase = .coding ∧
    (withMove .link (markUnit .enc .badPhase (encAt c24 .finalized 0 0x200 [7#8]))).enc.phase = .finalized ∧
    (withMove .link (markUnit .enc .badPhase (encAt c24 .finalized 0 0x200 [7#8]))).enc.mark ≠ none ∧
    (withMove (.bind [7#8]) State.reset).pending = [.bind [7#8]] ∧ State.reset.dec.phase ≠ .primed ∧
    State.reset.dec.phase ≠ .coding ∧ (withMove (.bind [7#8]) decWitness).pending = [.bind [7#8]] ∧
    decWitness.dec.phase = .coding := by decide

theorem witness_MarkIsSticky : markOf .enc (markUnit .enc .badPhase State.reset) = some .badPhase ∧
    (∃ t, step (withMove .resetDec (markUnit .enc .badPhase State.reset)) = .next t) ∧
    (withMove .resetDec State.reset).pending.head? ≠ some .reset ∧
    (withMove .resetDec State.reset).pending.head? ≠ some (if UnitName.enc = .enc then .resetEnc else .resetDec) :=
  ⟨rfl, ⟨_, rfl⟩, by decide, by decide⟩

theorem witness_RefusalMarksItsUnitOnly :
    (withMove (presents .encFinish) State.reset).pending = [presents .encFinish] ∧
    step (withMove (presents .encFinish) State.reset) = .refused .badPhase ∧
    markOf .enc (withMove (presents .encFinish) State.reset) = none ∧
    (withMove (presents .decFinish) State.reset).pending = [presents .decFinish] ∧
    step (withMove (presents .decFinish) State.reset) = .refused .badPhase ∧
    markOf .dec (withMove (presents .decFinish) State.reset) = none := ⟨rfl, rfl, rfl, rfl, rfl, rfl⟩

theorem witness_RoundTrip : ∀ x ∈ [(tabT, 0), (tabU, 2), (tabU, 0)], Codable c24 x := by unfold Codable; decide

theorem witness_MatchingSessionsGoInStep : ∀ x ∈ [(tabU, 2), (tabU, 2)] ++ [(tabT, 1)], Codable c24 x := by
  unfold Codable; decide

end Sys2Proof.Tests
end

section
/-!
PROOFS. What a step can do: the presented command, the moves of the host one by one, and the statements that follow from
them alone (O4, O5, O10, O44, O47).
-/

namespace Sys2Proof.Machine

variable {s t : State}

/-! ### The step, move by move -/

theorem step_of_pending {m : HostMove} {rest : List HostMove} (h : s.pending = m :: rest) :
    step s = perform m (s.withPending rest) := by rw [step, h]

theorem present_of_decode {p : Presented} {i : Instr} (h : decode p = .ok i) (s : State) :
    present p s = exec i s := by rw [present, h]

theorem present_eq_next {p : Presented} :
    present p s = .next t ↔ ∃ i, decode p = .ok i ∧ exec i s = .next t := by
  unfold present
  cases decode p <;> simp

/-- Everything a step that answers a next state can have done, move by move (R27, R33, R55, R210). -/
inductive Completes (s : State) : State → Prop
  | idle : s.pending = [] → Completes s s
  | command {p : Presented} {i : Instr} {rest : List HostMove} {t : State} :
      s.pending = .command p :: rest → decode p = .ok i → exec i (s.withPending rest) = .next t → Completes s t
  | reset {rest : List HostMove} : s.pending = .reset :: rest → Completes s (resetBlock (s.withPending rest))
  | resetEnc {rest : List HostMove} :
      s.pending = .resetEnc :: rest → Completes s (Machine.resetEnc (s.withPending rest))
  | resetDec {rest : List HostMove} :
      s.pending = .resetDec :: rest → Completes s (Machine.resetDec (s.withPending rest))
  | link {rest : List HostMove} :
      s.pending = .link :: rest → s.enc.phase = .finalized → s.enc.mark = none → s.dec.phase.mayCode = false →
      Completes s ((s.withPending rest).withInp s.out)
  | bind {bytes : List Byte} {rest : List HostMove} :
      s.pending = .bind bytes :: rest → s.dec.phase.mayCode = false →
      Completes s ((s.withPending rest).withInp bytes)

theorem step_eq_next : step s = .next t ↔ Completes s t := by
  constructor
  · intro h
    cases hp : s.pending with
    | nil => simp only [step, hp] at h; cases h; exact .idle hp
    | cons m rest =>
      rw [step_of_pending hp] at h
      cases m with
      | command p => obtain ⟨i, hd, hi⟩ := present_eq_next.1 h; exact .command hp hd hi
      | reset => cases h; exact .reset hp
      | resetEnc => cases h; exact .resetEnc hp
      | resetDec => cases h; exact .resetDec hp
      | link => obtain ⟨hf, hm, hd, rfl⟩ := (linkStreams_eq_next _).1 h; exact .link hp hf hm hd
      | bind bytes => obtain ⟨hd, rfl⟩ := (bindInput_eq_next _).1 h; exact .bind hp hd
  · intro h
    cases h with
    | idle hp => simp only [step, hp]
    | command hp hd hi => rw [step_of_pending hp]; exact present_eq_next.2 ⟨_, hd, hi⟩
    | reset hp => rw [step_of_pending hp]; rfl
    | resetEnc hp => rw [step_of_pending hp]; rfl
    | resetDec hp => rw [step_of_pending hp]; rfl
    | link hp hf hm hd => rw [step_of_pending hp]; exact (linkStreams_eq_next _).2 ⟨hf, hm, hd, rfl⟩
    | bind hp hd => rw [step_of_pending hp]; exact (bindInput_eq_next _).2 ⟨hd, rfl⟩

/-! ### What every command leaves -/

/-- A command writes its own unit and that unit's stream (R20, R25). -/
theorem exec_writes {i : Instr} (h : exec i s = .next t) :
    (∃ e out, t = s.withEnc e out) ∨ ∃ d is, t = s.withDec d is := by
  cases hi : unitOf i with
  | enc => exact .inl (exec_enc_writes hi h)
  | dec => exact .inr (exec_dec_writes hi h)

theorem exec_cfg {i : Instr} (h : exec i s = .next t) : t.cfg = s.cfg := by
  obtain ⟨e, out, rfl⟩ | ⟨d, is, rfl⟩ := exec_writes h <;> rfl

theorem exec_inp {i : Instr} (h : exec i s = .next t) : t.inp = s.inp := by
  obtain ⟨e, out, rfl⟩ | ⟨d, is, rfl⟩ := exec_writes h <;> rfl

end Sys2Proof.Machine

open Sys2Proof Sys2Proof.Machine

/-- Settles O4: both clauses are the definition of a step. -/
theorem stepRunsThePresentedCommand : Obligations.StepRunsThePresentedCommand := by
  constructor
  · intro s p i rest hp hd
    rw [step_of_pending hp]
    exact present_of_decode hd _
  · intro s hp
    exact step_eq_next.2 (.idle hp)

/-- Settles O5: each RESET writes the fresh unit, whose fields are the stated values. -/
theorem resetLeavesTheStatedValues : Obligations.ResetLeavesTheStatedValues := by
  intro s rest
  refine ⟨fun hp => ⟨_, step_eq_next.2 (.reset hp), ?_⟩, fun hp => ⟨_, step_eq_next.2 (.resetEnc hp), ?_⟩,
    fun hp => ⟨_, step_eq_next.2 (.resetDec hp), ?_⟩⟩
  · exact ⟨rfl, rfl, rfl, rfl, rfl, rfl⟩
  · exact ⟨rfl, rfl, rfl, rfl, rfl, rfl, rfl⟩
  · exact ⟨rfl, rfl, rfl, rfl, rfl, rfl⟩

/-- Settles O10: a command writes its unit alone, and no other move writes the configuration. -/
theorem configurationNeverChanges : Obligations.ConfigurationNeverChanges := by
  intro s t h
  cases step_eq_next.1 h with
  | command _ _ hi => simpa using exec_cfg hi
  | idle | reset | resetEnc | resetDec | link | bind => rfl

/-- Settles O47: the two moves that write the input are refused in these phases. -/
theorem inputIsConstantInASession : Obligations.InputIsConstantInASession := by
  intro s t hphase h
  have hcode := mayCode_iff.2 hphase
  cases step_eq_next.1 h with
  | command _ _ hi => simpa using exec_inp hi
  | link _ _ _ hd => rw [hcode] at hd; cases hd
  | bind _ hd => rw [hcode] at hd; cases hd
  | idle | reset | resetEnc | resetDec => rfl

/-- Settles O44: a command of DEC factors through a function of the configuration, DEC and the input, which answers the
same on both sides. -/
theorem decoderDependsOnlyOnItself : Obligations.DecoderDependsOnlyOnItself := by
  intro i s t hi hcfg hdec hinp
  obtain ⟨F, hF⟩ := decoder_factors hi
  rw [hF s, hF t, ← hcfg, ← hdec, ← hinp]
  cases F s.cfg s.dec s.inp with
  | ok y => exact .inl ⟨y.1, y.2, rfl, rfl⟩
  | error e =>
    cases e with
    | refuse r => exact .inr (.inl ⟨r, rfl, rfl⟩)
    | fault f => exact .inr (.inr ⟨f, rfl, rfl⟩)
end

section
/-!
PROOFS. The invariant of the two units (R34, R62, R118, R131, R134, R151): RESET establishes it, every command keeps it,
and a refusal excuses the unit it marks (O6, O7, O8).
-/

namespace Sys2Proof.Machine

variable {s t : State} {c : Config}

/-! ### RESET establishes it -/

theorem Enc.fresh_inv (c : Config) : (Enc.fresh c).Inv c [] :=
  ⟨settled_fresh c, fun _ => ⟨rfl, rfl, rfl⟩, nofun, Nat.zero_mod _⟩

theorem Dec.fresh_inv (c : Config) (inp : List Byte) : (Dec.fresh c).Inv c inp :=
  ⟨settled_fresh c, Nat.two_pow_pos _, Nat.zero_mod _, fun _ => ⟨rfl, rfl⟩, fun _ => ⟨rfl, rfl⟩, nofun⟩

theorem State.fresh_inv (c : Config) (inp : List Byte) (ms : List HostMove) : (State.fresh c inp ms).Inv :=
  ⟨fun _ => Enc.fresh_inv c, fun _ => Dec.fresh_inv c inp⟩

/-! ### The Range State after a command -/

/-- What RENORM leaves after NARROW by a symbol of a well-formed table is settled (R34, R112, R117). -/
theorem renorm_narrow_settled {α : Type} {xfer : RangeState → α → Except Stop α} {tab : Table} {i : Nat}
    {r : RangeState} {a : α} {x : RangeState × α} (hw : tableWF c tab = true) (hi : i < tab.n) (hs : r.Settled c)
    (hx : renorm c xfer (narrow c (cumAt tab (tab.n - 1)) (cumLo tab i) (countAt tab i) r) a = .ok x) :
    x.1.Settled c := by
  obtain ⟨hn, hp⟩ := narrow_eq hw hi hs
  rw [hn] at hx
  exact (renorm_settled hp hx).1

/-- The flush's `low = 0` keeps R34, since `range` is at most MASK (R134). -/
theorem RangeState.Settled.low_zero {r : RangeState} (h : r.Settled c) : RangeState.Settled c ⟨0, r.range⟩ := by
  obtain ⟨⟨hpos, -, -⟩, hbot, hmask⟩ := h
  have := c.mask_eq
  refine ⟨⟨hpos, ?_, ?_⟩, hbot, hmask⟩ <;> dsimp only <;> omega

/-! ### The streams after a command -/

/-- RENORM with EMIT appends whole chunks and takes nothing back (R120, R62). -/
theorem renorm_emit_out {r : RangeState} {out : List Byte} {x : RangeState × List Byte}
    (hx : renorm c (emitXfer c) r out = .ok x) : out <+: x.2 ∧ x.2.length % c.cb = out.length % c.cb := by
  obtain ⟨k1, k2, m, b, h1, h2⟩ := runs_of_renorm_eq hx
  obtain ⟨hpre1, hlen1⟩ := h1.emit_out
  obtain ⟨hpre2, hlen2⟩ := h2.emit_out
  exact ⟨hpre1.trans hpre2, by rw [hlen2, hlen1, Nat.add_mul_mod_self_right, Nat.add_mul_mod_self_right]⟩

/-- RENORM with CONSUME keeps `code` an N-bit value and moves `rpos` by whole chunks inside the input (R120, R54). -/
theorem renorm_consume_window {r : RangeState} {inp : List Byte} {w : Window} {x : RangeState × Window}
    (hx : renorm c (consumeXfer c inp) r w = .ok x) (hcode : w.code < 2 ^ c.N) (hle : w.rpos ≤ inp.length) :
    x.2.code < 2 ^ c.N ∧ x.2.rpos % c.cb = w.rpos % c.cb ∧ x.2.rpos ≤ inp.length := by
  obtain ⟨k1, k2, m, b, h1, h2⟩ := runs_of_renorm_eq hx
  obtain ⟨hr1, hin1, hc1⟩ := h1.consume_rpos
  obtain ⟨hr2, hin2, hc2⟩ := h2.consume_rpos
  exact ⟨hc2 (hc1 hcode), by rw [hr2, hr1, Nat.add_mul_mod_self_right, Nat.add_mul_mod_self_right], hin2 (hin1 hle)⟩

/-! ### One lemma per command -/

theorem execEncStart_keeps (hs : s.enc.Inv s.cfg s.out) (h : execEncStart s = .next t) : t.enc.Inv s.cfg t.out := by
  obtain ⟨-, -, rfl⟩ := execEncStart_eq_next.1 h
  obtain ⟨hset, -, -, hlen⟩ := hs
  exact ⟨hset, nofun, nofun, hlen⟩

theorem execEncode_keeps {tab : Table} {index : Nat} (hs : s.enc.Inv s.cfg s.out)
    (h : execEncode tab index s = .next t) : t.enc.Inv s.cfg t.out := by
  obtain ⟨⟨-, -, -, hi, hw⟩, x, hx, rfl⟩ := execEncode_eq_next.1 h
  obtain ⟨hset, -, -, hlen⟩ := hs
  exact ⟨renorm_narrow_settled hw hi hset hx, nofun, nofun, (renorm_emit_out hx).2.trans hlen⟩

theorem execEncFinish_keeps (hs : s.enc.Inv s.cfg s.out) (h : execEncFinish s = .next t) :
    t.enc.Inv s.cfg t.out := by
  obtain ⟨-, -, rfl⟩ := execEncFinish_eq_next.1 h
  obtain ⟨hset, -, -, hlen⟩ := hs
  simp only [flush_low_eq_zero]
  refine ⟨hset.low_zero, nofun, fun _ => rfl, ?_⟩
  simp only [State.withEnc_out, (flush_out _ _ _ _).1, Nat.add_mul_mod_self_right, hlen]

theorem execDecStart_keeps (hs : s.dec.Inv s.cfg s.inp) (h : execDecStart s = .next t) : t.dec.Inv s.cfg s.inp := by
  obtain ⟨-, hphase, w, hw, rfl⟩ := execDecStart_eq_next.1 h
  obtain ⟨hset, -, -, -, hfresh, -⟩ := hs
  obtain ⟨hrpos, hcode, hle⟩ := prime_keeps hw (Nat.zero_mod _) (Nat.two_pow_pos _) (Nat.zero_le _)
  exact ⟨hset, hcode, hrpos, nofun, fun _ => hfresh (.inl (mayStart_iff.1 hphase)), fun _ => hle⟩

theorem execDecode_keeps {tab : Table} (hs : s.dec.Inv s.cfg s.inp) (h : execDecode tab s = .next t) :
    t.dec.Inv s.cfg s.inp := by
  obtain ⟨⟨-, hphase, -, hw⟩, target, i, x, -, hi, hx, rfl⟩ := execDecode_eq_next.1 h
  obtain ⟨hset, hcode, hrpos, -, -, hin⟩ := hs
  obtain ⟨hcode', hrpos', hin'⟩ := renorm_consume_window hx hcode (hin hphase)
  exact ⟨renorm_narrow_settled hw (search_lt hw hi) hset hx, hcode', hrpos'.trans hrpos, nofun, nofun,
    fun _ => hin'⟩

theorem execDecFinish_keeps (hs : s.dec.Inv s.cfg s.inp) (h : execDecFinish s = .next t) :
    t.dec.Inv s.cfg s.inp := by
  obtain ⟨-, -, rfl⟩ := execDecFinish_eq_next.1 h
  obtain ⟨hset, hcode, hrpos, -, -, -⟩ := hs
  exact ⟨hset, hcode, hrpos, nofun, nofun, nofun⟩

/-! ### Every command, every move -/

/-- A command that answers a next state found its unit unmarked (R184). -/
theorem unmarked_of_exec {i : Instr} (h : exec i s = .next t) : markOf (unitOf i) s = none := by
  cases hm : markOf (unitOf i) s with
  | none => rfl
  | some r => rw [exec_marked hm] at h; cases h

theorem exec_keeps_enc {i : Instr} (hi : unitOf i = .enc) (hs : s.enc.Inv s.cfg s.out) (h : exec i s = .next t) :
    t.enc.Inv s.cfg t.out := by
  cases i with
  | encStart => exact execEncStart_keeps hs h
  | encode tab index => exact execEncode_keeps hs h
  | encFinish => exact execEncFinish_keeps hs h
  | decStart | decode | decFinish => cases hi

theorem exec_keeps_dec {i : Instr} (hi : unitOf i = .dec) (hs : s.dec.Inv s.cfg s.inp) (h : exec i s = .next t) :
    t.dec.Inv s.cfg s.inp := by
  cases i with
  | decStart => exact execDecStart_keeps hs h
  | decode tab => exact execDecode_keeps hs h
  | decFinish => exact execDecFinish_keeps hs h
  | encStart | encode | encFinish => cases hi

/-- A command keeps its own unit's invariant by its lemma and the other unit's because it does not touch it. -/
theorem exec_keeps_inv {i : Instr} (hs : s.Inv) (h : exec i s = .next t) : t.Inv := by
  obtain ⟨he, hd⟩ := hs
  have hm := unmarked_of_exec h
  cases hi : unitOf i with
  | enc =>
    rw [hi] at hm
    have hkeep := exec_keeps_enc hi (he hm) h
    obtain ⟨e, out, rfl⟩ := exec_enc_writes hi h
    exact ⟨fun _ => hkeep, hd⟩
  | dec =>
    rw [hi] at hm
    have hkeep := exec_keeps_dec hi (hd hm) h
    obtain ⟨d, is, rfl⟩ := exec_dec_writes hi h
    exact ⟨he, fun _ => hkeep⟩

/-- The invariant does not look at the host's moves. -/
theorem State.Inv.withPending (hs : s.Inv) (ms : List HostMove) : (s.withPending ms).Inv := hs

theorem resetEnc_keeps_inv (hs : s.Inv) : (resetEnc s).Inv := ⟨fun _ => Enc.fresh_inv _, hs.2⟩

theorem resetDec_keeps_inv (hs : s.Inv) : (resetDec s).Inv := ⟨hs.1, fun _ => Dec.fresh_inv _ _⟩

/-- Outside a session nothing is asked of the input (R33, R55). -/
theorem withInp_keeps_inv (hs : s.Inv) (hphase : s.dec.phase.mayCode = false) (bytes : List Byte) :
    (s.withInp bytes).Inv := by
  obtain ⟨he, hd⟩ := hs
  refine ⟨he, fun hm => ?_⟩
  obtain ⟨hset, hcode, hrpos, hcreated, hfresh, -⟩ := hd hm
  exact ⟨hset, hcode, hrpos, hcreated, hfresh, fun hmay => absurd (hphase.symm.trans hmay) Bool.false_ne_true⟩

theorem step_keeps_inv (hs : s.Inv) (h : step s = .next t) : t.Inv := by
  cases step_eq_next.1 h with
  | idle => exact hs
  | command _ _ hi => exact exec_keeps_inv (hs.withPending _) hi
  | reset => exact resetDec_keeps_inv (resetEnc_keeps_inv (hs.withPending _))
  | resetEnc => exact resetEnc_keeps_inv (hs.withPending _)
  | resetDec => exact resetDec_keeps_inv (hs.withPending _)
  | link _ _ _ hd => exact withInp_keeps_inv (hs.withPending _) hd _
  | bind _ hd => exact withInp_keeps_inv (hs.withPending _) hd _

/-! ### Across a refusal -/

/-- The invariant of the unit that is not `u`: all that is left to ask when `u` bears a mark. -/
def OtherInv (u : UnitName) (s : State) : Prop :=
  match u with
  | .enc => s.dec.mark = none → s.dec.Inv s.cfg s.inp
  | .dec => s.enc.mark = none → s.enc.Inv s.cfg s.out

theorem State.Inv.other (hs : s.Inv) (u : UnitName) : OtherInv u s := by
  cases u with
  | enc => exact hs.2
  | dec => exact hs.1

/-- Free values in the refused unit leave the other unit as it was (R20, R184). -/
theorem OtherInv.disturb {p : Presented} (h : OtherInv (cwUnit p.cw) s) : OtherInv (cwUnit p.cw) (disturbUnit p s) := by
  unfold disturbUnit
  cases decode p with
  | error _ => exact h
  | ok _ => revert h; cases cwUnit p.cw <;> exact id

theorem OtherInv.withPending {u : UnitName} (h : OtherInv u s) (ms : List HostMove) :
    OtherInv u (s.withPending ms) := by
  cases u <;> exact h

/-- With `u` marked, the other unit's invariant is the whole invariant (R184). -/
theorem OtherInv.mark {u : UnitName} (h : OtherInv u s) (r : Refusal) : (markUnit u r s).Inv := by
  cases u with
  | enc => exact ⟨nofun, h⟩
  | dec => exact ⟨h, nofun⟩

theorem afterRefusal_keeps_inv (hs : s.Inv) (r : Refusal) : (afterRefusal r s).Inv := by
  unfold afterRefusal
  split
  · exact hs
  · exact ((hs.other _).disturb.withPending _).mark r
  · exact hs.withPending _

theorem advance_keeps_inv (hs : s.Inv) : (advance s).Inv := by
  unfold advance
  cases h : step s with
  | next t => exact step_keeps_inv hs h
  | refused r => exact afterRefusal_keeps_inv hs r
  | fault f => exact hs

end Sys2Proof.Machine

open Sys2Proof Sys2Proof.Machine

/-- Settles O7, by what a step can do: each command keeps its unit's invariant, RESET establishes it, and the host's
acts on the input come only outside a session. -/
theorem everyStepKeepsTheInvariant : Obligations.EveryStepKeepsTheInvariant :=
  fun _ _ => step_keeps_inv

/-- Settles O8: after a next state by O7, after a refusal because the marked unit is excused and the other untouched. -/
theorem advanceKeepsTheInvariant : Obligations.AdvanceKeepsTheInvariant :=
  fun _ => advance_keeps_inv

/-- Settles O6: both fresh units meet their invariants. -/
theorem resetMeetsTheInvariant : Obligations.ResetMeetsTheInvariant :=
  ⟨State.fresh_inv, State.fresh_inv _ _ _⟩
end

section
/-!
PROOFS. The frames of the commands and their phase transitions (O40, O41, O42, O46).
-/

namespace Sys2Proof.Machine

variable {s t : State}

/-! ### The encoder's commands -/

theorem execEncode_out {tab : Table} {index : Nat} (h : execEncode tab index s = .next t) :
    t.enc.mark = s.enc.mark ∧ s.out <+: t.out := by
  obtain ⟨-, x, hx, rfl⟩ := execEncode_eq_next.1 h
  exact ⟨rfl, (renorm_emit_out hx).1⟩

theorem execEncStart_out (h : execEncStart s = .next t) : t.enc.mark = s.enc.mark ∧ s.out <+: t.out := by
  obtain ⟨-, -, rfl⟩ := execEncStart_eq_next.1 h
  exact ⟨rfl, List.prefix_refl _⟩

theorem execEncFinish_out (h : execEncFinish s = .next t) : t.enc.mark = s.enc.mark ∧ s.out <+: t.out := by
  obtain ⟨-, -, rfl⟩ := execEncFinish_eq_next.1 h
  exact ⟨rfl, (flush_out _ _ _ _).2⟩

/-- A command of ENC keeps ENC's mark and appends to `out` (R25, R33). -/
theorem exec_enc_out {i : Instr} (hi : unitOf i = .enc) (h : exec i s = .next t) :
    t.enc.mark = s.enc.mark ∧ s.out <+: t.out := by
  cases i with
  | encStart => exact execEncStart_out h
  | encode tab index => exact execEncode_out h
  | encFinish => exact execEncFinish_out h
  | decStart | decode | decFinish => cases hi

/-- The frame of ENC's commands (R25). -/
theorem exec_enc_frame {i : Instr} (hi : unitOf i = .enc) (h : exec i s = .next t) :
    t.dec = s.dec ∧ t.inp = s.inp ∧ t.results = s.results ∧ t.cfg = s.cfg ∧ t.pending = s.pending ∧
      t.enc.mark = s.enc.mark ∧ s.out <+: t.out := by
  obtain ⟨hm, hpre⟩ := exec_enc_out hi h
  obtain ⟨e, out, rfl⟩ := exec_enc_writes hi h
  exact ⟨rfl, rfl, rfl, rfl, rfl, hm, hpre⟩

/-! ### The decoder's commands -/

/-- A command of DEC keeps DEC's mark (R184). -/
theorem exec_dec_mark {i : Instr} (hi : unitOf i = .dec) (h : exec i s = .next t) : t.dec.mark = s.dec.mark := by
  cases i with
  | decStart => obtain ⟨-, -, w, -, rfl⟩ := execDecStart_eq_next.1 h; rfl
  | decode tab => obtain ⟨-, target, j, x, -, -, -, rfl⟩ := execDecode_eq_next.1 h; rfl
  | decFinish => obtain ⟨-, -, rfl⟩ := execDecFinish_eq_next.1 h; rfl
  | encStart | encode | encFinish => cases hi

/-- The frame of DEC's commands (R25). -/
theorem exec_dec_frame {i : Instr} (hi : unitOf i = .dec) (h : exec i s = .next t) :
    t.enc = s.enc ∧ t.out = s.out ∧ t.inp = s.inp ∧ t.cfg = s.cfg ∧ t.pending = s.pending ∧
      t.dec.mark = s.dec.mark := by
  have hm := exec_dec_mark hi h
  obtain ⟨d, is, rfl⟩ := exec_dec_writes hi h
  exact ⟨rfl, rfl, rfl, rfl, rfl, hm⟩

/-! ### What was sent stays -/

theorem exec_keeps_sent {i : Instr} (h : exec i s = .next t) : s.out <+: t.out := by
  cases hi : unitOf i with
  | enc => exact (exec_enc_out hi h).2
  | dec => rw [(exec_dec_frame hi h).2.1]

/-! ### The phases -/

theorem afterStart_eq (p : Phase) : afterStart p = if p.mayStart then some .primed else none := by cases p <;> rfl

theorem afterCode_eq (p : Phase) : afterCode p = if p.mayCode then some .coding else none := by cases p <;> rfl

theorem afterFinish_eq (p : Phase) : afterFinish p = if p.mayCode then some .finalized else none := by cases p <;> rfl

theorem afterStart_eq_none {p : Phase} : afterStart p = none ↔ p.mayStart = false := by simp [afterStart_eq]

theorem afterCode_eq_none {p : Phase} : afterCode p = none ↔ p.mayCode = false := by simp [afterCode_eq]

theorem afterFinish_eq_none {p : Phase} : afterFinish p = none ↔ p.mayCode = false := by simp [afterFinish_eq]

/-- A command that answers a next state has made the transition R28 lists for it. -/
theorem exec_transition {i : Instr} (h : exec i s = .next t) :
    transition i (phaseOf (unitOf i) s) = some (phaseOf (unitOf i) t) := by
  cases i with
  | encStart =>
    obtain ⟨-, hp, rfl⟩ := execEncStart_eq_next.1 h
    exact (afterStart_eq _).trans (if_pos hp)
  | encode tab index =>
    obtain ⟨⟨-, hp, -⟩, x, -, rfl⟩ := execEncode_eq_next.1 h
    exact (afterCode_eq _).trans (if_pos hp)
  | encFinish =>
    obtain ⟨-, hp, rfl⟩ := execEncFinish_eq_next.1 h
    exact (afterFinish_eq _).trans (if_pos hp)
  | decStart =>
    obtain ⟨-, hp, w, -, rfl⟩ := execDecStart_eq_next.1 h
    exact (afterStart_eq _).trans (if_pos hp)
  | decode tab =>
    obtain ⟨⟨-, hp, -⟩, target, j, x, -, -, -, rfl⟩ := execDecode_eq_next.1 h
    exact (afterCode_eq _).trans (if_pos hp)
  | decFinish =>
    obtain ⟨-, hp, rfl⟩ := execDecFinish_eq_next.1 h
    exact (afterFinish_eq _).trans (if_pos hp)

/-- The first two guards of every command refuse an unmarked unit in a phase the command does not list (R186). -/
theorem finish_guards_badPhase {mark : Option Refusal} {may : Bool} {k : Unit → Except Stop State}
    (hm : mark = none) (hp : may = false) :
    finish (do unmarked mark; let u ← require may .badPhase; k u) = .refused .badPhase := by
  subst hm hp
  rfl

/-- A command in a phase for which R28 lists no transition is refused with BadPhase. -/
theorem exec_badPhase {i : Instr} (hm : markOf (unitOf i) s = none)
    (ht : transition i (phaseOf (unitOf i) s) = none) : exec i s = .refused .badPhase := by
  cases i with
  | encStart | decStart => exact finish_guards_badPhase hm (afterStart_eq_none.1 ht)
  | encode | decode => exact finish_guards_badPhase hm (afterCode_eq_none.1 ht)
  | encFinish | decFinish => exact finish_guards_badPhase hm (afterFinish_eq_none.1 ht)

end Sys2Proof.Machine

open Sys2Proof Sys2Proof.Machine

/-- Settles O40: the two halves are `exec_transition` and `exec_badPhase`, and RESET writes two fresh units. -/
theorem phaseTransitions : Obligations.PhaseTransitions := by
  intro i s
  refine ⟨fun t h => exec_transition h, exec_badPhase, fun hp => ?_⟩
  obtain ⟨rest, hrest⟩ := List.head?_eq_some_iff.1 hp
  exact ⟨_, step_eq_next.2 (.reset hrest), rfl, rfl⟩

/-- Settles O41, with the frame that the three commands share. -/
theorem encoderCommandsFrame : Obligations.EncoderCommandsFrame := by
  intro s t tab index
  refine ⟨fun h => ?_, fun h => ?_, ?_⟩
  · obtain ⟨-, -, rfl⟩ := execEncStart_eq_next.1 h
    exact ⟨rfl, rfl⟩
  · obtain ⟨-, -, rfl⟩ := execEncFinish_eq_next.1 h
    rfl
  · rintro (h | h | h) <;> exact exec_enc_frame rfl h

/-- Settles O42, with the frame that the three commands share; the index DECODE returns is the one SEARCH found. -/
theorem decoderCommandsFrame : Obligations.DecoderCommandsFrame := by
  intro s t tab
  refine ⟨fun h => ?_, fun h => ?_, fun h => ?_, ?_⟩
  · obtain ⟨-, -, w, -, rfl⟩ := execDecStart_eq_next.1 h
    exact ⟨rfl, rfl⟩
  · obtain ⟨-, -, rfl⟩ := execDecFinish_eq_next.1 h
    exact ⟨rfl, rfl, rfl⟩
  · obtain ⟨⟨-, -, -, hw⟩, target, i, x, -, hi, -, rfl⟩ := execDecode_eq_next.1 h
    exact ⟨i, search_lt hw hi, rfl⟩
  · rintro (h | h | h) <;> exact exec_dec_frame rfl h

/-- Settles O46: a command only appends, and of the other moves only the two RESETs named write `out`. -/
theorem outOnlyGrows : Obligations.OutOnlyGrows := by
  intro s t h hreset hresetEnc
  cases step_eq_next.1 h with
  | command _ _ hi => simpa using exec_keeps_sent hi
  | reset hp => simp [hp] at hreset
  | resetEnc hp => simp [hp] at hresetEnc
  | idle | resetDec | link | bind => exact List.prefix_refl _
end

section
/-!
PROOFS. One chunk on its way from ENC to DEC: what EMIT sent while the registers went from `r` to `q` is what CONSUME
needs to keep `code` inside the interval of the same registers (R35, R118, R120, R152).
-/

namespace Sys2Proof.Machine

variable {c : Config} {r r' q : RangeState} {w w' : Window} {inp tail : List Byte}

/-! ### The terms -/

/-- The bytes `tail` still to be read hold a full register, and its value lies in the interval of `r` (R35). -/
def RangeState.Holds (c : Config) (r : RangeState) (tail : List Byte) : Prop :=
  c.nchunk * c.cb ≤ tail.length ∧ r.low ≤ chunksValue c tail c.nchunk ∧
    chunksValue c tail c.nchunk < r.low + r.range

/-- The decoder stands at the head of `tail`: `code` is its first NCHUNK chunks, and `rpos` is just past them
(R24, R32). -/
def Window.Shows (c : Config) (inp tail : List Byte) (w : Window) : Prop :=
  ∃ pre, inp = pre ++ tail ∧ w.code = chunksValue c tail c.nchunk ∧ w.rpos = pre.length + c.nchunk * c.cb

/-- The decoder stands `n` whole chunks before `tail`. -/
def Window.HasChunks (c : Config) (inp tail : List Byte) (n : Nat) (w : Window) : Prop :=
  ∃ bs : List Byte, bs.length = n * c.cb ∧ w.Shows c inp (bs ++ tail)

/-- What an iteration of either loop of RENORM does to the registers: `low` loses its top chunk, and the new width is
that of a part of the old interval, both a chunk further left (R115, R116). -/
def RangeState.ShiftsTo (c : Config) (r q : RangeState) : Prop :=
  q.low = r.low % c.top * 2 ^ c.P ∧ ∃ d ≤ r.range, q.range = d * 2 ^ c.P

theorem RangeState.Placed.shiftBoth_shifts (h : r.Placed c) (ht : topAgrees c r = true) :
    r.ShiftsTo c (Machine.shiftBoth c r) := by
  rw [h.shiftBoth_eq ht]
  exact ⟨rfl, r.range, le_rfl, rfl⟩

theorem RangeState.Placed.clampShift_shifts (h : r.Placed c) (ht : topAgrees c r = false)
    (hu : underflows c r = true) : r.ShiftsTo c (Machine.clampShift c r) := by
  obtain ⟨-, hle, heq⟩ := h.clampShift_eq ht hu
  rw [heq]
  exact ⟨rfl, _, hle, rfl⟩

/-! ### The register's worth of chunks at the head of a stream -/

/-- The head of `first ++ tail` is the first chunk and all but the last chunk of the head of `tail` (R60). -/
theorem chunksValue_head {first : List Byte} (hf : first.length = c.cb) (tail : List Byte) :
    chunksValue c (first ++ tail) c.nchunk = bytesChunk c first * c.top + chunksValue c tail (c.nchunk - 1) := by
  have hn : c.nchunk = c.nchunk - 1 + 1 := by have := c.nchunk_ge; omega
  conv_lhs => rw [hn, chunksValue_cons c hf]
  rw [c.top_eq_pow, c.two_pow_P_pow]

theorem chunksValue_last (c : Config) (tail : List Byte) :
    chunksValue c tail c.nchunk = chunksValue c tail (c.nchunk - 1) * 2 ^ c.P + chunkIn c tail (c.nchunk - 1) := by
  have hn : c.nchunk = c.nchunk - 1 + 1 := by have := c.nchunk_ge; omega
  conv_lhs => rw [hn]
  rfl

theorem nchunk_mul_cb (c : Config) : c.nchunk * c.cb = c.cb + (c.nchunk - 1) * c.cb := by
  obtain ⟨n, hn⟩ : ∃ n, c.nchunk = n + 1 := ⟨c.nchunk - 1, by have := c.nchunk_ge; omega⟩
  rw [hn, Nat.add_sub_cancel, Nat.succ_mul, Nat.add_comm]

theorem chunkIn_last_lt (h : c.nchunk * c.cb ≤ tail.length) : chunkIn c tail (c.nchunk - 1) < 2 ^ c.P := by
  refine chunkIn_lt c ?_
  rwa [Nat.sub_add_cancel (by have := c.nchunk_ge; omega)]

theorem chunksValue_init_lt (h : c.nchunk * c.cb ≤ tail.length) : chunksValue c tail (c.nchunk - 1) < c.top := by
  rw [c.top_eq_pow, c.two_pow_P_pow]
  exact chunksValue_lt c ((Nat.mul_le_mul_right _ (Nat.sub_le _ _)).trans h)

/-! ### One chunk -/

/-- EMIT's side: if what follows lies in the interval after an iteration, then with the chunk EMIT sent before it it
lies in the interval of before. -/
theorem RangeState.Holds.emit (hlow : r.low < 2 ^ c.N) (hs : r.ShiftsTo c q) (h : q.Holds c tail) :
    r.Holds c (chunkBytes c (r.low / c.top % 2 ^ c.P) ++ tail) := by
  obtain ⟨hlen, hge, hlt⟩ := h
  obtain ⟨hql, d, hd, hqr⟩ := hs
  have htop : r.low / c.top < 2 ^ c.P := Nat.div_lt_of_lt_mul (by rwa [← c.two_pow_N])
  have hlast := chunkIn_last_lt hlen
  have hdiv := Nat.div_add_mod' r.low c.top
  rw [chunksValue_last, hql] at hge hlt
  rw [hqr, ← Nat.add_mul] at hlt
  have hlo : r.low % c.top ≤ chunksValue c tail (c.nchunk - 1) := by
    refine Nat.lt_succ_iff.1 (Nat.lt_of_mul_lt_mul_right (a := 2 ^ c.P) ?_)
    rw [Nat.succ_mul]
    omega
  have hhi : chunksValue c tail (c.nchunk - 1) < r.low % c.top + d :=
    Nat.lt_of_mul_lt_mul_right ((Nat.le_add_right _ _).trans_lt hlt)
  refine ⟨?_, ?_⟩
  · rw [List.length_append]
    omega
  · rw [chunksValue_head (chunkBytes_length _ _), bytesChunk_chunkBytes, Nat.mod_mod, Nat.mod_eq_of_lt htop]
    omega

/-- CONSUME's side: it drops the first chunk of the head from `code` and takes in the chunk after it (R152). -/
theorem Window.Shows.consume {first : List Byte} (hf : first.length = c.cb) (hlen : c.nchunk * c.cb ≤ tail.length)
    (h : w.Shows c inp (first ++ tail)) : ∃ w', Machine.consume c inp w = .ok w' ∧ w'.Shows c inp tail := by
  obtain ⟨pre, rfl, hcode, hrpos⟩ := h
  have hsplit := nchunk_mul_cb c
  have hle : w.rpos + c.cb ≤ (pre ++ (first ++ tail)).length := by
    simp only [List.length_append]
    omega
  refine ⟨_, consume_eq c hle, pre ++ first, (List.append_assoc _ _ _).symm, ?_, ?_⟩
  · have hdrop : (pre ++ (first ++ tail)).drop w.rpos = tail.drop ((c.nchunk - 1) * c.cb) := by
      rw [hrpos, hsplit, ← Nat.add_assoc, ← hf, ← List.append_assoc, ← List.length_append,
        List.drop_length_add_append]
    rw [chunksValue_last, hdrop, hcode, chunksValue_head hf, Nat.mul_add_mod_self_right,
      Nat.mod_eq_of_lt (chunksValue_init_lt hlen)]
    rfl
  · dsimp only
    rw [List.length_append, hrpos, hf]
    omega

theorem Window.HasChunks.consume {n : Nat} (hlen : c.nchunk * c.cb ≤ tail.length)
    (h : w.HasChunks c inp tail (n + 1)) :
    ∃ w', Machine.consume c inp w = .ok w' ∧ w'.HasChunks c inp tail n := by
  obtain ⟨bs, hbs, hw⟩ := h
  rw [Nat.succ_mul] at hbs
  rw [← List.take_append_drop c.cb bs, List.append_assoc] at hw
  obtain ⟨w', hcons, hw'⟩ := hw.consume (by rw [List.length_take]; omega) (by rw [List.length_append]; omega)
  exact ⟨w', hcons, bs.drop c.cb, by rw [List.length_drop]; omega, hw'⟩

/-! ### A run of RENORM -/

/-- A loop with EMIT whose iterations are `ShiftsTo` while `Good` holds: what it appends, before a stream of the last
interval, is a stream of the first. -/
theorem LoopRuns.holds_back {cond : RangeState → Bool} {next : RangeState → RangeState} {Good : RangeState → Prop}
    (hgood : ∀ r, Good r → cond r = true → r.low < 2 ^ c.N ∧ r.ShiftsTo c (next r) ∧ Good (next r))
    {out out' : List Byte} {k : Nat} (h : LoopRuns cond next (emitXfer c) r out k r' out') (hr : Good r) :
    Good r' ∧ ∃ bs, out' = out ++ bs ∧ ∀ tail, r'.Holds c tail → r.Holds c (bs ++ tail) := by
  induction h with
  | exit _ => exact ⟨hr, [], by simp, fun _ ht => ht⟩
  | @again r _ out _ _ _ hc hx _ ih =>
    obtain ⟨hlow, hshift, hnext⟩ := hgood r hr hc
    obtain ⟨hr', bs, rfl, hback⟩ := ih hnext
    simp only [emitXfer, Except.ok.injEq, emit_eq] at hx
    subst hx
    refine ⟨hr', _, List.append_assoc _ _ _, fun tail ht => ?_⟩
    rw [List.append_assoc]
    exact (hback tail ht).emit hlow hshift

/-- RENORM with EMIT under J: what it appends, before a stream of the interval it ends on, is a stream of the interval
it starts from (R35, R117). -/
theorem RenormRuns.holds_back {out out' : List Byte} {k1 k2 : Nat} (hp : r.Placed c)
    (h : RenormRuns c (emitXfer c) r out k1 k2 r' out') :
    ∃ bs, out' = out ++ bs ∧ ∀ tail, r'.Holds c tail → r.Holds c (bs ++ tail) := by
  obtain ⟨m, b, h1, h2⟩ := h
  obtain ⟨hm, bs1, rfl, hback1⟩ := h1.holds_back (Good := RangeState.Placed c)
    (fun r hr hc => ⟨hr.low_lt, hr.shiftBoth_shifts hc, hr.shiftBoth hc⟩) hp
  obtain ⟨-, bs2, rfl, hback2⟩ := h2.holds_back (Good := fun r => r.Placed c ∧ topAgrees c r = false)
    (fun r ⟨hr, ht⟩ hu =>
      have ⟨hnext, hfull⟩ := hr.clampShift ht hu
      ⟨hr.low_lt, hr.clampShift_shifts ht hu, hnext, hnext.topAgrees_false_of_full hfull⟩) ⟨hm, h1.cond_false⟩
  refine ⟨bs1 ++ bs2, List.append_assoc _ _ _, fun tail ht => ?_⟩
  rw [List.append_assoc]
  exact hback1 _ (hback2 _ ht)

/-- RENORM with CONSUME makes the iterations of any run from the same registers, and passes exactly as many chunks
(R120). -/
theorem RenormRuns.consume_shows {α : Type} {xfer : RangeState → α → Except Stop α} {a a' : α} {k1 k2 : Nat}
    (h : RenormRuns c xfer r a k1 k2 r' a') {bs : List Byte} (hbs : bs.length = (k1 + k2) * c.cb)
    (hlen : c.nchunk * c.cb ≤ tail.length) (hw : w.Shows c inp (bs ++ tail)) :
    ∃ w', RenormRuns c (consumeXfer c inp) r w k1 k2 r' w' ∧ w'.Shows c inp tail := by
  obtain ⟨m, b, h1, h2⟩ := h
  have hready := fun n (_ : RangeState) (v : Window) (hv : v.HasChunks c inp tail (n + 1)) => hv.consume hlen
  obtain ⟨v, hrun1, hv⟩ := h1.transfer (Ready := Window.HasChunks c inp tail) hready k2 w ⟨bs, hbs, hw⟩
  obtain ⟨w', hrun2, hd, hhd, hw'⟩ := h2.transfer (Ready := Window.HasChunks c inp tail) hready 0 v hv
  rw [Nat.zero_mul, List.length_eq_zero_iff] at hhd
  subst hhd
  exact ⟨w', ⟨m, v, hrun1, hrun2⟩, hw'⟩

/-- The same of RENORM itself: the bytes its EMIT appends lead its CONSUME to the same registers. -/
theorem renorm_decodable {bs : List Byte} (hp : r.Placed c) (h : renorm c (emitXfer c) r [] = .ok (r', bs))
    (ht : r'.Holds c tail) :
    r.Holds c (bs ++ tail) ∧ ∀ inp w, w.Shows c inp (bs ++ tail) →
      ∃ w', renorm c (consumeXfer c inp) r w = .ok (r', w') ∧ w'.Shows c inp tail := by
  obtain ⟨k1, k2, hrun⟩ := runs_of_renorm_eq h
  obtain ⟨bs', hbs', hback⟩ := hrun.holds_back hp
  obtain rfl : bs = bs' := by simpa using hbs'
  refine ⟨hback tail ht, fun inp w hw => ?_⟩
  have hlen : bs.length = (k1 + k2) * c.cb := by
    obtain ⟨m, b, h1, h2⟩ := hrun
    rw [h2.emit_out.2, h1.emit_out.2, Nat.add_mul]
    simp
  obtain ⟨w', hcons, hw'⟩ := hrun.consume_shows hlen ht.1 hw
  obtain ⟨m, v, h1, h2⟩ := hcons
  have hk1 := topLoop_bound h1
  have hk2 := underflowLoop_bound h2
  exact ⟨w', RenormRuns.renorm_eq ⟨m, v, h1, h2⟩ (by omega) (by omega), hw'⟩

/-! ### The flush -/

/-- The bytes ENC_FINISH sends (R134). -/
def flushBytes (c : Config) (low : Nat) : List Byte := (flush c c.nchunk low []).2

theorem flushBytes_length (c : Config) (low : Nat) : (flushBytes c low).length = c.nchunk * c.cb := by
  rw [flushBytes, (flush_out _ _ _ _).1, List.length_nil, Nat.zero_add]

/-- The first `m` chunks of a flush are the top `m` chunks of `low`. -/
theorem chunksValue_flush (c : Config) (m low : Nat) (hm : m ≤ c.nchunk) (hlow : low < 2 ^ c.N) :
    chunksValue c (flush c m low []).2 m = low / 2 ^ (c.N - m * c.P) := by
  induction m generalizing low with
  | zero => simp [chunksValue, Nat.div_eq_of_lt hlow]
  | succ m ih =>
    have hle : (m + 1) * c.P ≤ c.N := by rw [c.N_eq]; exact Nat.mul_le_mul_right _ hm
    have hmul : (m + 1) * c.P = m * c.P + c.P := Nat.succ_mul _ _
    have htop : c.top = 2 ^ (c.N - (m + 1) * c.P) * 2 ^ (m * c.P) := by
      rw [Config.top, ← pow_add]; congr 1; omega
    have hpow : 2 ^ (c.N - m * c.P) = 2 ^ (c.N - (m + 1) * c.P) * 2 ^ c.P := by
      rw [← pow_add]; congr 1; omega
    have hchunk : low / c.top < 2 ^ c.P := Nat.div_lt_of_lt_mul (by rwa [← c.two_pow_N])
    rw [flush, flush_emit, emit_eq, List.nil_append, chunksValue_cons c (chunkBytes_length _ _),
      ih _ (by omega) (wrap_lt _ _), bytesChunk_chunkBytes, Nat.mod_mod, Nat.mod_eq_of_lt hchunk, shiftLeft_wrap, hpow,
      Nat.mul_div_mul_right _ _ (Nat.two_pow_pos _)]
    have hdiv := Nat.div_add_mod low c.top
    conv_rhs => rw [← hdiv, htop, Nat.mul_assoc, Nat.mul_add_div (Nat.two_pow_pos _), ← htop]
    rw [Nat.mul_comm]

/-- After the last symbol the flush is a stream of the interval: the decoder's `code` is `low` itself (R134, R35). -/
theorem holds_flush (h : r.Placed c) : r.Holds c (flushBytes c r.low) := by
  have hv : chunksValue c (flushBytes c r.low) c.nchunk = r.low := by
    rw [flushBytes, chunksValue_flush c _ _ le_rfl h.low_lt, ← c.N_eq]
    simp
  obtain ⟨hpos, -, -⟩ := h
  refine ⟨(flushBytes_length c r.low).ge, hv.ge, ?_⟩
  rw [hv]
  omega

end Sys2Proof.Machine
end

section
/-!
PROOFS. Whole sessions: what a list of symbols does to ENC's registers and stream, the two units' runs on it, and the
point of the two sessions after some of the symbols (O52).
-/

namespace Sys2Proof.Machine

variable {c : Config} {s t : State} {r m r' : RangeState} {xs ys : List (Table × Nat)} {bs tail : List Byte}
  {rest : List HostMove}

/-! ### Single steps of a run -/

/-- What the host presents for a command decodes to it (R86 to R88). -/
theorem decode_encode (i : Instr) : decode (encode i) = .ok i := by
  cases i with
  | encStart | encFinish | decStart | decFinish => rfl
  | encode t index =>
    simp [decode, encode, packCw, cwRsv, cwUnit, cwFn, decodeEnc, Ports.carrying, Ports.table]
  | decode t => simp [decode, encode, packCw, cwRsv, cwUnit, cwFn, decodeDec, Ports.carrying, Ports.table]

theorem runSteps_succ (h : step s = .next t) (k : Nat) : runSteps (k + 1) s = runSteps k t := by
  rw [runSteps, h]

theorem step_presents (s : State) (i : Instr) (rest : List HostMove) :
    step (s.withPending (presents i :: rest)) = exec i (s.withPending rest) :=
  (step_of_pending (m := presents i) rfl).trans (present_of_decode (decode_encode i) _)

/-! ### The moves of a session -/

/-- The ENCODE commands of a session (R138). -/
def encodeMoves (xs : List (Table × Nat)) : List HostMove := xs.map fun x => presents (.encode x.1 x.2)

/-- The DECODE commands of a session (R215). -/
def decodeMoves (xs : List (Table × Nat)) : List HostMove := xs.map fun x => presents (.decode x.1)

theorem encSession_eq (xs : List (Table × Nat)) (rest : List HostMove) :
    encSession xs ++ rest = presents .encStart :: (encodeMoves xs ++ presents .encFinish :: rest) := by
  simp [encSession, encodeMoves]

theorem encSession_length (xs : List (Table × Nat)) : (encSession xs).length = xs.length + 2 := by simp [encSession]

theorem decSession_eq (xs : List (Table × Nat)) :
    decSession xs = presents .decStart :: (decodeMoves xs ++ [presents .decFinish]) := rfl

theorem encodeMoves_append (xs ys : List (Table × Nat)) : encodeMoves (xs ++ ys) = encodeMoves xs ++ encodeMoves ys :=
  List.map_append

theorem decodeMoves_append (xs ys : List (Table × Nat)) : decodeMoves (xs ++ ys) = decodeMoves xs ++ decodeMoves ys :=
  List.map_append

/-! ### The symbols of a session on ENC's registers -/

/-- Coding the symbols `xs` from registers `r` ends on `r'` and appends `bs` (R132, R138). -/
inductive Codes (c : Config) : RangeState → List (Table × Nat) → RangeState → List Byte → Prop
  | nil {r : RangeState} : Codes c r [] r []
  | cons {r m r' : RangeState} {x : Table × Nat} {xs : List (Table × Nat)} {b bs : List Byte} :
      Codable c x → renorm c (emitXfer c) (placedAt x.1 x.2 r) [] = .ok (m, b) → Codes c m xs r' bs →
      Codes c r (x :: xs) r' (b ++ bs)

/-- NARROW by a symbol leaves J (R112, R118). -/
theorem Codable.placed {x : Table × Nat} (hx : Codable c x) (hr : r.Settled c) : (placedAt x.1 x.2 r).Placed c := by
  obtain ⟨-, hw, hi⟩ := hx
  exact (narrow_eq hw hi hr).2

/-- A symbol leaves a settled Range State settled. -/
theorem Codable.settled {α : Type} {xfer : RangeState → α → Except Stop α} {x : Table × Nat} {a a' : α}
    (hx : Codable c x) (hr : r.Settled c) (h : renorm c xfer (placedAt x.1 x.2 r) a = .ok (m, a')) : m.Settled c :=
  (renorm_settled (hx.placed hr) h).1

/-- ENCODE's RENORM completes for every symbol (R119, R133). -/
theorem Codable.renorm_emit_completes {x : Table × Nat} (hx : Codable c x) (hr : r.Settled c) :
    ∃ m b, renorm c (emitXfer c) (placedAt x.1 x.2 r) [] = .ok (m, b) := by
  obtain ⟨k1, k2, m, b, hrun, hk1, hk2, -⟩ := renorm_runs (xfer := emitXfer c) (Ready := fun _ _ => True)
    (fun _ _ _ _ => ⟨_, rfl, trivial⟩) c _ (hx.placed hr) [] trivial
  exact ⟨m, b, hrun.renorm_eq (by omega) (by omega)⟩

theorem codes_exists (hr : r.Settled c) (hxs : ∀ x ∈ xs, Codable c x) : ∃ r' bs, Codes c r xs r' bs := by
  induction xs generalizing r with
  | nil => exact ⟨r, [], .nil⟩
  | cons x xs ih =>
    have hx := hxs x List.mem_cons_self
    obtain ⟨m, b, hm⟩ := hx.renorm_emit_completes hr
    obtain ⟨r', bs, h⟩ := ih (hx.settled hr hm) fun y hy => hxs y (List.mem_cons_of_mem _ hy)
    exact ⟨r', _, .cons hx hm h⟩

theorem Codes.settled (h : Codes c r xs r' bs) (hr : r.Settled c) : r'.Settled c := by
  induction h with
  | nil => exact hr
  | cons hx hm _ ih => exact ih (hx.settled hr hm)

theorem Codes.append {bs' : List Byte} (h : Codes c r xs m bs) (h' : Codes c m ys r' bs') :
    Codes c r (xs ++ ys) r' (bs ++ bs') := by
  induction h with
  | nil => exact h'
  | cons hx hm _ ih => rw [List.append_assoc]; exact .cons hx hm (ih h')

/-- An interval inside a symbol's interval is inside the one the symbol narrows (R113). -/
theorem RangeState.Holds.of_placedAt {x : Table × Nat} (hx : Codable c x) (h : (placedAt x.1 x.2 r).Holds c tail) :
    r.Holds c tail := by
  obtain ⟨-, hw, hi⟩ := hx
  obtain ⟨hlen, hge, hlt⟩ := h
  exact ⟨hlen, (Nat.le_add_right _ _).trans hge, hlt.trans_le (placedAt_inside hw hi r)⟩

/-- What ENC appends for `xs`, before a stream of the interval it ends on, is a stream of the interval it starts from
(R35). -/
theorem Codes.holds (h : Codes c r xs r' bs) (hr : r.Settled c) (ht : r'.Holds c tail) : r.Holds c (bs ++ tail) := by
  induction h with
  | nil => exact ht
  | cons hx hm _ ih =>
    rw [List.append_assoc]
    exact .of_placedAt hx (renorm_decodable (hx.placed hr) hm (ih (hx.settled hr hm) ht)).1

/-! ### The encoder's run -/

/-- ENCODE of a symbol, whatever was sent before (R132). -/
theorem exec_encode_codable {x : Table × Nat} {b : List Byte} (hx : Codable s.cfg x)
    (hr : s.enc.toRangeState.Settled s.cfg) (hmark : s.enc.mark = none) (hphase : s.enc.phase.mayCode = true)
    (hm : renorm s.cfg (emitXfer s.cfg) (placedAt x.1 x.2 s.enc.toRangeState) [] = .ok (m, b)) :
    exec (.encode x.1 x.2) s =
      .next (s.withEnc { toRangeState := m, phase := .coding, mark := none } (s.out ++ b)) := by
  obtain ⟨hadm, hw, hi⟩ := hx
  refine execEncode_eq_next.2 ⟨⟨hmark, hphase, hadm, hi, hw⟩, (m, s.out ++ b), ?_, by rw [← hmark]⟩
  rw [(narrow_eq hw hi hr).1, renorm_emit, hm]
  rfl

/-- ENC's run of the symbols `xs` in a session (R138): it moves the registers and appends as `Codes` says. -/
theorem Codes.encode_run (h : Codes c r xs r' bs) (hr : r.Settled c) (hc : s.cfg = c) (hreg : s.enc.toRangeState = r)
    (hmark : s.enc.mark = none) (hphase : s.enc.phase.mayCode = true) :
    ∃ p : Phase, p.mayCode = true ∧
      runSteps xs.length (s.withPending (encodeMoves xs ++ rest)) =
        .next ((s.withPending rest).withEnc { toRangeState := r', phase := p, mark := none } (s.out ++ bs)) := by
  induction h generalizing s with
  | nil =>
    refine ⟨s.enc.phase, hphase, ?_⟩
    subst hc
    rw [List.append_nil, ← hreg, ← hmark]
    rfl
  | @cons r m r' x xs b bs hx hm _ ih =>
    subst hc hreg
    have hstep := (step_presents s (.encode x.1 x.2) (encodeMoves xs ++ rest)).trans
      (exec_encode_codable (s := s.withPending _) hx hr hmark hphase hm)
    obtain ⟨p, hp, hrun⟩ := ih (s := s.withEnc { toRangeState := m, phase := .coding, mark := none } (s.out ++ b))
      (hx.settled hr hm) rfl rfl rfl rfl
    refine ⟨p, hp, (runSteps_succ hstep _).trans ?_⟩
    rw [← List.append_assoc]
    exact hrun

/-! ### The decoder's run -/

/-- DECODE of a symbol from a window inside the symbol's interval: the index is the symbol's (R155). -/
theorem exec_decode_codable {x : Table × Nat} (hx : Codable s.cfg x) (hr : s.dec.toRangeState.Settled s.cfg)
    (hmark : s.dec.mark = none) (hphase : s.dec.phase.mayCode = true)
    (hin : (placedAt x.1 x.2 s.dec.toRangeState).Holds s.cfg tail)
    (hcode : s.dec.code = chunksValue s.cfg tail s.cfg.nchunk) {w : Window}
    (hm : renorm s.cfg (consumeXfer s.cfg s.inp) (placedAt x.1 x.2 s.dec.toRangeState) s.dec.toWindow =
      .ok (m, w)) :
    exec (.decode x.1) s = .next (s.withDec { toRangeState := m, toWindow := w, phase := .coding, mark := none }
      (s.results ++ [x.2])) := by
  obtain ⟨hadm, hw, hi⟩ := hx
  obtain ⟨-, hge, hlt⟩ := hin
  rw [← hcode] at hge hlt
  obtain ⟨htarget, hfound⟩ := decode_finds hr hw hi hge hlt
  refine execDecode_eq_next.2 ⟨⟨hmark, hphase, hadm, hw⟩, _, x.2, (m, w), htarget, hfound, ?_, by rw [← hmark]⟩
  rw [(narrow_eq hw hi hr).1, hm]

/-- DEC's run of the symbols `xs` in a matching session (R35, R155): it returns their indices and goes through ENC's
registers, with the input's window moving from before what ENC appended for `xs` to behind it. -/
theorem Codes.decode_run (h : Codes c r xs r' bs) (hr : r.Settled c) (hc : s.cfg = c) (hreg : s.dec.toRangeState = r)
    (hmark : s.dec.mark = none) (hphase : s.dec.phase.mayCode = true) (ht : r'.Holds c tail)
    (hw : s.dec.toWindow.Shows c s.inp (bs ++ tail)) :
    ∃ (p : Phase) (w : Window), p.mayCode = true ∧ w.Shows c s.inp tail ∧
      runSteps xs.length (s.withPending (decodeMoves xs ++ rest)) =
        .next ((s.withPending rest).withDec { toRangeState := r', toWindow := w, phase := p, mark := none }
          (s.results ++ xs.map fun x => x.2)) := by
  induction h generalizing s with
  | nil =>
    refine ⟨s.dec.phase, s.dec.toWindow, hphase, hw, ?_⟩
    subst hc
    rw [List.map_nil, List.append_nil, ← hreg, ← hmark]
    rfl
  | @cons r m r' x xs b bs hx hm hrest ih =>
    subst hc hreg
    have hset := hx.settled hr hm
    rw [List.append_assoc] at hw
    obtain ⟨hin, hcons⟩ := renorm_decodable (hx.placed hr) hm (hrest.holds hset ht)
    obtain ⟨w, hren, hw'⟩ := hcons _ _ hw
    obtain ⟨-, -, hcode, -⟩ := hw
    have hstep := (step_presents s (.decode x.1) (decodeMoves xs ++ rest)).trans
      (exec_decode_codable (s := s.withPending (decodeMoves xs ++ rest)) hx hr hmark hphase hin hcode hren)
    obtain ⟨p, w', hp, hshow, hrun⟩ := ih (s := s.withDec
      { toRangeState := m, toWindow := w, phase := .coding, mark := none } (s.results ++ [x.2]))
      hset rfl rfl rfl rfl ht hw'
    refine ⟨p, w', hp, hshow, (runSteps_succ hstep _).trans ?_⟩
    rw [List.map_cons, List.append_cons s.results]
    exact hrun

/-! ### The points of two matching sessions -/

/-- Right after RESET and ENC_START (R131, R211). -/
theorem run_to_primed (s : State) (rest : List HostMove) :
    runSteps 2 (s.withPending (.reset :: presents .encStart :: rest)) =
      .next ((State.fresh s.cfg s.inp rest).withEnc { Enc.fresh s.cfg with phase := .primed } []) := by
  have hreset : step (s.withPending (.reset :: presents .encStart :: rest)) =
      .next ((State.fresh s.cfg s.inp rest).withPending (presents .encStart :: rest)) := rfl
  have hstart := (step_presents (State.fresh s.cfg s.inp rest) .encStart rest).trans
    (execEncStart_eq_next.2 ⟨rfl, rfl, rfl⟩)
  exact (runSteps_succ hreset 1).trans (runSteps_succ hstart 0)

/-- After RESET, ENC_START and the symbols `xs`: ENC holds what `Codes` says (R138). -/
theorem run_encoder (h : Codes s.cfg (Enc.fresh s.cfg).toRangeState xs r bs) (rest : List HostMove) :
    ∃ p : Phase, p.mayCode = true ∧
      runSteps (2 + xs.length) (s.withPending (.reset :: presents .encStart :: (encodeMoves xs ++ rest))) =
      .next ((State.fresh s.cfg s.inp rest).withEnc { toRangeState := r, phase := p, mark := none } bs) := by
  obtain ⟨p, hp, hrun⟩ := h.encode_run (rest := rest) (s := (State.fresh s.cfg s.inp rest).withEnc
    { Enc.fresh s.cfg with phase := .primed } []) (settled_fresh _) rfl rfl rfl rfl
  exact ⟨p, hp, (runSteps_add 2 _ _ _ (run_to_primed s _)).trans hrun⟩

/-- ENC_FINISH in a session (R134). -/
theorem exec_encFinish_flush (hmark : s.enc.mark = none) (hphase : s.enc.phase.mayCode = true) :
    exec .encFinish s = .next (s.withEnc { s.enc with low := 0, phase := .finalized }
      (s.out ++ flushBytes s.cfg s.enc.low)) := by
  refine execEncFinish_eq_next.2 ⟨hmark, hphase, ?_⟩
  rw [flush_low_eq_zero, flush_emit]
  rfl

/-- LINK in matching sessions (R55). -/
theorem run_link (hpending : s.pending = .link :: rest) (hphase : s.enc.phase = .finalized) (hmark : s.enc.mark = none)
    (hdec : s.dec.phase.mayCode = false) : runSteps 1 s = .next ((s.withPending rest).withInp s.out) :=
  runSteps_succ (step_eq_next.2 (.link hpending hphase hmark hdec)) 0

/-- ENC_FINISH and LINK: the input becomes the output with the flush behind it (R134, R55). -/
theorem run_finish_link (hmark : s.enc.mark = none) (hphase : s.enc.phase.mayCode = true)
    (hdec : s.dec.phase.mayCode = false) (rest : List HostMove) :
    runSteps 2 (s.withPending (presents .encFinish :: .link :: rest)) =
      .next (((s.withPending rest).withEnc { s.enc with low := 0, phase := .finalized }
        (s.out ++ flushBytes s.cfg s.enc.low)).withInp (s.out ++ flushBytes s.cfg s.enc.low)) := by
  have hfinish := (step_presents s .encFinish (.link :: rest)).trans
    (exec_encFinish_flush (s := s.withPending _) hmark hphase)
  exact (runSteps_succ hfinish 1).trans (run_link rfl rfl hmark hdec)

/-- DEC_START right after RESET of DEC takes in the head of the input (R151). -/
theorem exec_decStart_fresh (hdec : s.dec = Dec.fresh s.cfg) (hlen : s.cfg.nchunk * s.cfg.cb ≤ s.inp.length) :
    ∃ w : Window, w.Shows s.cfg s.inp s.inp ∧
      exec .decStart s = .next (s.withDec { Dec.fresh s.cfg with toWindow := w, phase := .primed } s.results) := by
  have hprime := prime_eq s.cfg s.inp s.cfg.nchunk 0 (Nat.zero_add _).le (by rwa [Nat.zero_add])
  rw [Nat.zero_mul, Nat.zero_add] at hprime
  have hmark : s.dec.mark = none := by rw [hdec]; rfl
  have hphase : s.dec.phase.mayStart = true := by rw [hdec]; rfl
  refine ⟨⟨chunksValue s.cfg s.inp s.cfg.nchunk, s.cfg.nchunk * s.cfg.cb⟩,
    ⟨[], rfl, rfl, (Nat.zero_add _).symm⟩, ?_⟩
  rw [← hdec]
  exact execDecStart_eq_next.2 ⟨hmark, hphase, _, hprime, rfl⟩

/-- The block of configuration `c` after LINK of a finalized encoder session that sent `sent`, with DEC as RESET left it
(R55, R134). -/
def State.linked (c : Config) (range : Nat) (sent : List Byte) (pending : List HostMove) : State :=
  (State.fresh c sent pending).withEnc { low := 0, range := range, phase := .finalized, mark := none } sent

/-- After RESET, the encoder session of `xs`, LINK and DEC_START: the input is the complete output, and DEC stands at
its head with the Range State RESET left (R134, R55, R151). -/
theorem run_to_decoder (h : Codes s.cfg (Enc.fresh s.cfg).toRangeState xs r bs) (rest : List HostMove) :
    ∃ w : Window, w.Shows s.cfg (bs ++ flushBytes s.cfg r.low) (bs ++ flushBytes s.cfg r.low) ∧
      runSteps ((encSession xs).length + 3)
        (s.withPending (.reset :: (encSession xs ++ .link :: presents .decStart :: rest))) =
      .next ((State.linked s.cfg r.range (bs ++ flushBytes s.cfg r.low) rest).withDec
        { Dec.fresh s.cfg with toWindow := w, phase := .primed } []) := by
  have hcount : (encSession xs).length + 3 = 2 + xs.length + (2 + 1) := by rw [encSession_length]; omega
  have hlen : s.cfg.nchunk * s.cfg.cb ≤ (bs ++ flushBytes s.cfg r.low).length := by
    rw [List.length_append, flushBytes_length]
    exact Nat.le_add_left _ _
  obtain ⟨p, hp, hcode⟩ := run_encoder h (presents .encFinish :: .link :: presents .decStart :: rest)
  have hlink := run_finish_link
    (s := (State.fresh s.cfg s.inp []).withEnc { toRangeState := r, phase := p, mark := none } bs) rfl hp rfl
    (presents .decStart :: rest)
  obtain ⟨w, hshows, hstart⟩ := exec_decStart_fresh
    (s := State.linked s.cfg r.range (bs ++ flushBytes s.cfg r.low) rest) rfl hlen
  have hstep := (step_presents
    (State.linked s.cfg r.range (bs ++ flushBytes s.cfg r.low) []) .decStart rest).trans hstart
  refine ⟨w, hshows, ?_⟩
  rw [encSession_eq, hcount, runSteps_add _ _ _ _ hcode]
  exact (runSteps_add 2 1 _ _ hlink).trans (runSteps_succ hstep 0)

/-- The point of the decoder session after the symbols `xs`, with `ys` still to come: DEC holds the registers ENC had
there, and stands at what ENC sent from there on (R35). -/
theorem run_decoder {bs' : List Byte} (hxs : Codes s.cfg (Enc.fresh s.cfg).toRangeState xs r bs)
    (hys : Codes s.cfg r ys r' bs') (rest : List HostMove) :
    ∃ (p : Phase) (w : Window), p.mayCode = true ∧
      w.Shows s.cfg (bs ++ (bs' ++ flushBytes s.cfg r'.low)) (bs' ++ flushBytes s.cfg r'.low) ∧
      runSteps ((encSession (xs ++ ys)).length + 3 + xs.length) (s.withPending
        (.reset :: (encSession (xs ++ ys) ++ .link :: presents .decStart :: (decodeMoves xs ++ rest)))) =
      .next ((State.linked s.cfg r'.range (bs ++ (bs' ++ flushBytes s.cfg r'.low)) rest).withDec
        { toRangeState := r, toWindow := w, phase := p, mark := none } (xs.map fun x => x.2)) := by
  have hr := hxs.settled (settled_fresh _)
  have hholds := hys.holds hr (holds_flush (hys.settled hr).1)
  obtain ⟨w, hshows, hstart⟩ := run_to_decoder (hxs.append hys) (decodeMoves xs ++ rest)
  rw [List.append_assoc] at hshows hstart
  obtain ⟨p, v, hp, hv, hrun⟩ := hxs.decode_run (rest := rest)
    (s := (State.linked s.cfg r'.range (bs ++ (bs' ++ flushBytes s.cfg r'.low)) []).withDec
      { Dec.fresh s.cfg with toWindow := w, phase := .primed } []) (settled_fresh _) rfl rfl rfl rfl hholds hshows
  exact ⟨p, v, hp, hv, (runSteps_add _ _ _ _ hstart).trans hrun⟩

end Sys2Proof.Machine

open Sys2Proof Sys2Proof.Machine

/-- Settles O52: ENC codes `xs`, then `ys`, then flushes; what it sends behind the bytes of `xs` is a stream of the
interval it had there, and DEC, in the same registers, stands at the head of that stream. -/
theorem matchingSessionsGoInStep : Obligations.MatchingSessionsGoInStep := by
  intro s xs ys hcodable
  obtain ⟨r, bs, hxs⟩ := codes_exists (settled_fresh s.cfg) fun x hx => hcodable x (List.mem_append_left ys hx)
  have hr := hxs.settled (settled_fresh s.cfg)
  obtain ⟨r', bs', hys⟩ := codes_exists hr fun y hy => hcodable y (List.mem_append_right xs hy)
  obtain ⟨p, -, henc⟩ := run_encoder hxs (encodeMoves ys ++ presents .encFinish :: .link :: decSession (xs ++ ys))
  obtain ⟨q, w, -, ⟨-, -, hcode, -⟩, hdec⟩ := run_decoder hxs hys (decodeMoves ys ++ [presents .decFinish])
  obtain ⟨-, hge, hlt⟩ := hys.holds hr (holds_flush (hys.settled hr).1)
  rw [← hcode] at hge hlt
  rw [← List.append_assoc, ← encodeMoves_append, ← encSession_eq] at henc
  rw [← List.append_assoc, ← decodeMoves_append, ← decSession_eq] at hdec
  exact ⟨_, _, henc, hdec, rfl, hge, (Nat.sub_lt_iff_lt_add hge).2 (Nat.add_comm .. ▸ hlt), rfl⟩
end

section
/-!
PROOFS. The streams and the table space: the sums of a well-formed table (O39), and when LINK and the binding of an
input are no move of the host (O48).
-/

namespace Sys2Proof.Machine

/-! ### The sums of a well-formed table -/

section WellFormedTable

variable {c : Config} {t : Table} (h : tableWF c t = true)
include h

/-- Symbol `j` alone adds its count, at least 1, to the sum before it (R58). -/
theorem cumAt_strictMono {i j : Nat} (hij : i < j) (hj : j < t.n) : cumAt t i < cumAt t j := by
  have hlo : cumLo t j = cumAt t (j - 1) := if_pos (Nat.zero_lt_of_lt hij)
  calc cumAt t i ≤ cumLo t j := hlo ▸ cumAt_mono h (Nat.le_sub_one_of_lt hij) (by omega)
    _ < cumLo t j + countAt t j := Nat.lt_add_of_pos_right (countAt_pos h hj)
    _ = cumAt t j := cumLo_add_countAt h hj

theorem succ_le_cumAt {i : Nat} (hi : i < t.n) : i + 1 ≤ cumAt t i := by
  induction i with
  | zero => exact (countAt_pos h hi).trans (cumLo_add_countAt h hi ▸ Nat.le_add_left _ _)
  | succ i ih =>
    have hprev := ih (by omega)
    have hstep := cumAt_strictMono h (Nat.lt_add_one i) hi
    omega

end WellFormedTable

/-! ### When the host's acts on the streams are refused -/

variable (s : State)

theorem mayCode_eq_false_iff {p : Phase} : p.mayCode = false ↔ p ≠ .primed ∧ p ≠ .coding := by
  rw [← Bool.not_eq_true, mayCode_iff, not_or]

theorem bindInput_of_mayCode {bs : List Byte} (h : s.dec.phase.mayCode = true) :
    bindInput bs s = .refused .noSuchHostMove := if_pos h

theorem linkStreams_of_not_next
    (h : ¬(s.enc.phase = .finalized ∧ s.enc.mark = none ∧ s.dec.phase.mayCode = false)) :
    linkStreams s = .refused .noSuchHostMove := by
  unfold linkStreams
  split
  next henc =>
    obtain ⟨hfin, hmark⟩ : s.enc.phase = .finalized ∧ s.enc.mark = none := by simpa using henc
    exact bindInput_of_mayCode s (eq_true_of_ne_false fun hdec => h ⟨hfin, hmark, hdec⟩)
  next => rfl

end Sys2Proof.Machine

open Sys2Proof Sys2Proof.Machine

/-- Settles O39: each sum exceeds the one before it by a count of at least 1, so `count_cum[i]` is at least `i + 1`. -/
theorem wellFormedSumsIncrease : Obligations.WellFormedSumsIncrease := by
  intro c t h
  refine ⟨fun i j hij hj => cumAt_strictMono h hij hj, ?_⟩
  obtain ⟨-, -, hn, -⟩ := tableWF_iff.1 h
  have hlast := succ_le_cumAt h (Nat.sub_one_lt_of_lt hn)
  omega

/-- Settles O48: either act completes exactly when DEC is outside a session and, for LINK, ENC is finalized and
unmarked; otherwise it is refused. -/
theorem linkCarriesTheOutput : Obligations.LinkCarriesTheOutput := by
  intro s rest
  refine ⟨fun hp => ⟨fun hfin hmark hprimed hcoding => ?_, fun hrefuse => ?_⟩,
    fun bytes hp => ⟨fun hprimed hcoding => ?_, fun hcode => ?_⟩⟩
  · exact step_eq_next.2 (.link hp hfin hmark (mayCode_eq_false_iff.2 ⟨hprimed, hcoding⟩))
  · rw [step_of_pending hp]
    refine linkStreams_of_not_next _ fun ⟨hfin, hmark, hdec⟩ => ?_
    obtain ⟨hprimed, hcoding⟩ := mayCode_eq_false_iff.1 hdec
    obtain h | h | h | h := hrefuse
    · exact h hfin
    · exact h hmark
    · exact hprimed h
    · exact hcoding h
  · exact step_eq_next.2 (.bind hp (mayCode_eq_false_iff.2 ⟨hprimed, hcoding⟩))
  · rw [step_of_pending hp]
    exact bindInput_of_mayCode _ (mayCode_iff.2 hcode)
end

section
/-!
PROOFS. The encodings: the fields of a command word and the words that decode to a command (O1, O3), what a reserved
word leaves (O2), and the bytes of a chunk (O24, O25).
-/

namespace Sys2Proof

/-! ### The command word -/

theorem getLsbD_two_eq_cwUnit (w : BitVec 8) : w.getLsbD 2 = decide (cwUnit w = .dec) := by
  unfold cwUnit
  cases w.getLsbD 2 <;> rfl

/-- `rsv`, `unit` and `fn` are all the bits of a command word (R86). -/
theorem cw_ext {v w : BitVec 8} (hrsv : cwRsv v = cwRsv w) (hunit : cwUnit v = cwUnit w) (hfn : cwFn v = cwFn w) :
    v = w := by
  refine BitVec.eq_of_getLsbD_eq fun k hk => ?_
  obtain hlo | rfl | hhi : k < 2 ∨ k = 2 ∨ 3 ≤ k := by omega
  · simpa [cwFn, hlo] using congrArg (·.getLsbD k) hfn
  · rw [getLsbD_two_eq_cwUnit, getLsbD_two_eq_cwUnit, hunit]
  · have hbit := congrArg (·.getLsbD (k - 3)) hrsv
    simpa [cwRsv, show k - 3 < 5 by omega, show 3 + (k - 3) = k by omega] using hbit

theorem cwFields_encode : ∀ i : Instr, Laws.CwFields.Statement i
  | .encStart => Laws.CwFields.encStart
  | .encode t index => Laws.CwFields.encode t index
  | .encFinish => Laws.CwFields.encFinish
  | .decStart => Laws.CwFields.decStart
  | .decode t => Laws.CwFields.decode t
  | .decFinish => Laws.CwFields.decFinish

/-- The fields of a packed word (R86). -/
theorem packCw_fields : ∀ (unit : BitVec 1) (fn : BitVec 2), cwRsv (packCw unit fn) = 0#5 ∧
    cwUnit (packCw unit fn) = (if unit = 0#1 then .enc else .dec) ∧ cwFn (packCw unit fn) = fn := by decide

theorem decode_packCw_enc (fn : BitVec 2) (ports : Ports) : decode ⟨packCw 0#1 fn, ports⟩ = decodeEnc fn ports := by
  obtain ⟨hrsv, hunit, hfn⟩ := packCw_fields 0#1 fn
  simp [decode, hrsv, hunit, hfn]

theorem decode_packCw_dec (fn : BitVec 2) (ports : Ports) : decode ⟨packCw 1#1 fn, ports⟩ = decodeDec fn ports := by
  obtain ⟨hrsv, hunit, hfn⟩ := packCw_fields 1#1 fn
  simp [decode, hrsv, hunit, hfn]

variable {p : Presented} {fn : BitVec 2} {ports : Ports} {i : Instr}

theorem decodeEnc_eq_ok (h : decodeEnc fn ports = .ok i) : Machine.unitOf i = .enc ∧ cwFn (encode i).cw = fn := by
  unfold decodeEnc at h
  split_ifs at h <;> cases h <;> subst fn <;> simp [encode, packCw_fields, Machine.unitOf]

theorem decodeDec_eq_ok (h : decodeDec fn ports = .ok i) : Machine.unitOf i = .dec ∧ cwFn (encode i).cw = fn := by
  unfold decodeDec at h
  split_ifs at h <;> cases h <;> subst fn <;> simp [encode, packCw_fields, Machine.unitOf]

/-- What a word that decodes to a command says in its fields (R86, R88). -/
theorem decode_eq_ok (h : decode p = .ok i) :
    cwRsv p.cw = 0#5 ∧ cwUnit p.cw = Machine.unitOf i ∧ cwFn p.cw = cwFn (encode i).cw := by
  unfold decode at h
  split at h
  next hrsv =>
    refine ⟨hrsv, ?_⟩
    cases hunit : cwUnit p.cw with
    | enc =>
      rw [hunit] at h
      obtain ⟨hi, hfn⟩ := decodeEnc_eq_ok h
      exact ⟨hi.symm, hfn.symm⟩
    | dec =>
      rw [hunit] at h
      obtain ⟨hi, hfn⟩ := decodeDec_eq_ok h
      exact ⟨hi.symm, hfn.symm⟩
  next => cases h

/-- A word that decodes to a command has the fields of that command's word, so it is that word (R86, R88). -/
theorem encode_cw_of_decode (h : decode p = .ok i) : (encode i).cw = p.cw := by
  obtain ⟨hrsv, hunit, hfn⟩ := decode_eq_ok h
  obtain ⟨hrsv', hunit', -⟩ := cwFields_encode i
  exact cw_ext (hrsv'.trans hrsv.symm) (hunit'.trans hunit.symm) hfn.symm

/-- The words the six commands are presented with (R88). -/
theorem encode_cw_mem (i : Instr) : (encode i).cw ∈ [0x00#8, 0x01#8, 0x02#8, 0x04#8, 0x05#8, 0x06#8] := by
  cases i <;> simp [encode, packCw]

/-- The words R90 reserves. -/
theorem decode_reserved {w : BitVec 8} (hw : w = 0x03#8 ∨ w = 0x07#8 ∨ 0x08#8 ≤ w) (ports : Ports) :
    ∃ e, decode ⟨w, ports⟩ = .error e := by
  cases hd : decode ⟨w, ports⟩ with
  | error e => exact ⟨e, rfl⟩
  | ok i =>
    have hmem := encode_cw_of_decode hd ▸ encode_cw_mem i
    have hdefined : ∀ v ∈ [0x00#8, 0x01#8, 0x02#8, 0x04#8, 0x05#8, 0x06#8],
        ¬(v = 0x03#8 ∨ v = 0x07#8 ∨ 0x08#8 ≤ v) := by decide
    exact absurd hw (hdefined w hmem)

end Sys2Proof

namespace Sys2Proof.Machine

variable {s : State} {p : Presented} {rest : List HostMove} {e : DecodeError}

/-! ### A reserved word -/

theorem step_reserved (hp : s.pending = .command p :: rest) (hd : decode p = .error e) :
    step s = .refused .reservedCommand := by
  rw [step_of_pending hp, perform, present, hd]

/-- A reserved word takes the move and marks the unit CW[2] names, and does nothing else (R90, log 4). -/
theorem advance_reserved (hp : s.pending = .command p :: rest) (hd : decode p = .error e) :
    advance s = markUnit (cwUnit p.cw) .reservedCommand (s.withPending rest) := by
  simp only [advance, step_reserved hp hd, afterRefusal, hp, disturbUnit, hd]

/-! ### The bytes of a chunk -/

theorem bytesDown_joinBytes (bs : List Byte) :
    ((List.range bs.length).map fun j => byteAt (joinBytes bs) (8 * (bs.length - 1 - j))) = bs := by
  refine List.ext_getElem (by simp) fun j hj hj' => ?_
  simpa using byteAt_joinBytes bs.length bs rfl j hj'

/-- What the encoder writes for a chunk read from CB bytes are these bytes (R82). -/
theorem chunkBytes_bytesChunk (c : Config) {bs : List Byte} (h : bs.length = c.cb) :
    chunkBytes c (bytesChunk c bs) = bs := by
  unfold chunkBytes bytesChunk
  cases c.order with
  | big => exact h ▸ bytesDown_joinBytes bs
  | little =>
    have hdown := bytesDown_joinBytes bs.reverse
    rw [List.length_reverse, h, ← bytesUp_reverse] at hdown
    exact List.reverse_injective hdown

/-- In either order byte `j` of a chunk is cut out at a bit of its own (R82). -/
theorem chunkBytes_eq_map (c : Config) (chunk : Nat) : chunkBytes c chunk =
    (List.range c.cb).map fun j => byteAt chunk (if c.order = .big then 8 * (c.cb - 1 - j) else 8 * j) := by
  unfold chunkBytes
  cases c.order <;> rfl

/-- A chunk of 8 bits is its one byte, in either order (R59). -/
theorem chunkBytes_of_P_eq_eight {c : Config} (h : c.P = 8) (chunk : Nat) : chunkBytes c chunk = [byteAt chunk 0] := by
  have hcb : c.cb = 1 := by rw [Config.cb, h]
  rw [chunkBytes_eq_map, hcb]
  cases c.order <;> rfl

end Sys2Proof.Machine

open Sys2Proof Sys2Proof.Machine

/-- Settles O24: reading cuts to P bits, which changes no chunk, and the bytes of a joined number are those joined. -/
theorem chunkBytesRoundTrip : Obligations.ChunkBytesRoundTrip := by
  refine ⟨fun c chunk hchunk => ?_, fun c bs hbs => ⟨?_, chunkBytes_bytesChunk c hbs⟩⟩
  · rw [bytesChunk_chunkBytes]
    exact Nat.mod_eq_of_lt (Nat.lt_of_le_pred (Nat.two_pow_pos _) hchunk)
  · exact Nat.le_pred_of_lt (bytesChunk_lt c hbs)

/-- Settles O25: the bit at which byte `j` begins decides its value, and a chunk of 8 bits has one byte. -/
theorem chunkByteOrder : Obligations.ChunkByteOrder := by
  refine fun c chunk => ⟨chunkBytes_length c chunk, fun j hj => ?_, fun d hc hd => ?_⟩
  · simp only [chunkBytes_eq_map, List.getElem_map, List.getElem_range, byteAt_toNat, Config.cb]
    split <;> rfl
  · rw [chunkBytes_of_P_eq_eight hc, chunkBytes_of_P_eq_eight hd]

/-- Settles O1: each of the six words decodes by its fields, and a word that decodes is the word its command is presented
with. -/
theorem commandMapHasSixWords : Obligations.CommandMapHasSixWords := by
  refine ⟨fun p => ?_, fun w p i h => ?_⟩
  · exact ⟨decode_packCw_enc 0#2 p, decode_packCw_enc 1#2 p, decode_packCw_enc 2#2 p, decode_packCw_dec 0#2 p,
      decode_packCw_dec 1#2 p, decode_packCw_dec 2#2 p⟩
  have hmem := encode_cw_mem i
  rw [encode_cw_of_decode h] at hmem
  simpa using hmem

/-- Settles O2: the word decodes to no command, so the move goes, one unit is marked and the rest stands. -/
theorem reservedWordsAreRefused : Obligations.ReservedWordsAreRefused := by
  intro s w p rest hp hw
  obtain ⟨e, hd⟩ := decode_reserved hw p
  refine ⟨step_reserved hp hd, ?_⟩
  rw [advance_reserved hp hd]
  cases cwUnit w with
  | enc | dec => exact ⟨rfl, rfl, rfl, rfl, rfl, rfl, rfl, rfl, rfl, rfl⟩

/-- Settles O3: a presented command decodes to itself, and the fields of a word that decodes are those of its command's
word. -/
theorem decodeEncodeAgree : Obligations.DecodeEncodeAgree :=
  ⟨decode_encode, fun _ _ => encode_cw_of_decode⟩
end

section
/-!
PROOFS. The Range State and RENORM: the intervals NARROW cuts (O26), one iteration of each loop (O27 to O29), the loops
with fuel against their runs and how they end (O30 to O33), and the transfers they make (O34).
-/

namespace Sys2Proof.Machine

variable {c : Config} {r r' : RangeState} {t : Table}

/-! ### The intervals of a table -/

/-- The interval of symbol `i` ends where its sum says (R113). -/
theorem placedAt_end (hw : tableWF c t = true) {i : Nat} (hi : i < t.n) (r : RangeState) :
    (placedAt t i r).low + (placedAt t i r).range = r.low + r.range / cumAt t (t.n - 1) * cumAt t i := by
  rw [← cumLo_add_countAt hw hi, Nat.mul_add, ← Nat.add_assoc, placedAt]

/-- A later symbol begins at the sum of its predecessor, and no sum before that is greater. -/
theorem cumAt_le_cumLo (hw : tableWF c t = true) {i j : Nat} (hij : i < j) (hj : j < t.n) : cumAt t i ≤ cumLo t j := by
  rw [cumLo, if_pos (Nat.zero_lt_of_lt hij)]
  exact cumAt_mono hw (Nat.le_sub_one_of_lt hij) (by omega)

/-- The intervals of two symbols do not overlap (R113). -/
theorem placedAt_disjoint (hw : tableWF c t = true) {i j : Nat} (hij : i < j) (hj : j < t.n) (r : RangeState) :
    (placedAt t i r).low + (placedAt t i r).range ≤ (placedAt t j r).low := by
  rw [placedAt_end hw (hij.trans hj)]
  exact Nat.add_le_add_left (Nat.mul_le_mul_left _ (cumAt_le_cumLo hw hij hj)) _

/-! ### One iteration -/

/-- Where loop 1's condition holds under J, the top chunks of `low` and of `low + range` agree (R115). -/
theorem RangeState.Placed.top_chunks_eq (h : r.Placed c) (ht : topAgrees c r = true) :
    r.low / c.top = (r.low + r.range) / c.top := by
  have hagree := topAgrees_iff.1 ht
  rwa [wrap_of_lt (h.of_topAgrees ht).1] at hagree

/-- The clamp takes `low` up to a multiple of BOTTOM (R116). -/
theorem bottom_dvd_add_clamp (c : Config) (low : Nat) : c.bottom ∣ low + (neg c.N low &&& (c.bottom - 1)) := by
  have hmod := Nat.mod_lt low c.bottom_pos
  have hup : low + (c.bottom - low % c.bottom) = c.bottom * (low / c.bottom + 1) := by
    have hdiv := Nat.div_add_mod low c.bottom
    rw [Nat.mul_add, Nat.mul_one]
    omega
  rw [neg_and_bottom, Nat.dvd_iff_mod_eq_zero, Nat.add_mod_mod, hup, Nat.mul_mod_right]

/-- The clamp is below BOTTOM, so its shift by one chunk discards no bit (R116). -/
theorem clampShift_range (c : Config) (r : RangeState) :
    (clampShift c r).range = (neg c.N r.low &&& (c.bottom - 1)) * 2 ^ c.P := by
  have hclamp : neg c.N r.low &&& (c.bottom - 1) < c.bottom := by
    rw [neg_and_bottom]
    exact Nat.mod_lt _ c.bottom_pos
  have hle := c.two_bottom_le_top
  simp only [clampShift, shiftLeft_wrap]
  rw [Nat.mod_eq_of_lt (by omega)]

/-- Where loop 2 iterates under J, the next multiple of BOTTOM above `low` is one of TOP (R116, R118 b). -/
theorem RangeState.Placed.clamp_eq (h : r.Placed c) (ht : topAgrees c r = false) (hu : underflows c r = true) :
    neg c.N r.low &&& (c.bottom - 1) = c.top - r.low % c.top := by
  obtain ⟨-, -, heq⟩ := h.clampShift_eq ht hu
  refine Nat.eq_of_mul_eq_mul_right (Nat.two_pow_pos c.P) ?_
  rw [← clampShift_range, heq]

/-! ### The runs of RENORM -/

section Runs

variable {α : Type} {xfer : RangeState → α → Except Stop α} {a a' : α} {k1 k2 : Nat}

/-- The bounds of R119, from any registers and for any transfer. -/
theorem RenormRuns.bounds (h : RenormRuns c xfer r a k1 k2 r' a') : k1 ≤ c.nchunk - 1 ∧ k2 ≤ c.nchunk - 2 := by
  obtain ⟨m, b, htop, hunder⟩ := h
  exact ⟨topLoop_bound htop, underflowLoop_bound hunder⟩

/-- The fuel of `renorm` cuts no run short: it answers exactly what its loops end on (R114). -/
theorem renorm_eq_ok : renorm c xfer r a = .ok (r', a') ↔ ∃ k1 k2, RenormRuns c xfer r a k1 k2 r' a' := by
  refine ⟨runs_of_renorm_eq, fun ⟨k1, k2, h⟩ => ?_⟩
  obtain ⟨hk1, hk2⟩ := h.bounds
  exact h.renorm_eq (hk1.trans (Nat.sub_le _ _)) (hk2.trans (Nat.sub_le _ _))

/-- Two runs from the same registers make the same iterations and end on the same registers (R120). -/
theorem RenormRuns.unique {β : Type} {xfer' : RangeState → β → Except Stop β} {b b' : β} {j1 j2 : Nat} {q : RangeState}
    (h : RenormRuns c xfer r a k1 k2 r' a') (h' : RenormRuns c xfer' r b j1 j2 q b') : k1 = j1 ∧ k2 = j2 ∧ r' = q := by
  obtain ⟨m, u, htop, hunder⟩ := h
  obtain ⟨m', u', htop', hunder'⟩ := h'
  obtain ⟨rfl, rfl⟩ := htop.unique htop'
  exact ⟨rfl, hunder.unique hunder'⟩

/-- With EMIT a run exists under J, since EMIT refuses nothing (R119, R133). -/
theorem RangeState.Placed.renorm_emit_runs (h : r.Placed c) (out : List Byte) :
    ∃ k1 k2 r' out', RenormRuns c (emitXfer c) r out k1 k2 r' out' := by
  obtain ⟨k1, k2, r', out', hrun, -⟩ := renorm_runs (xfer := emitXfer c) (Ready := fun _ _ => True)
    (fun _ _ _ _ => ⟨_, rfl, trivial⟩) c r h out trivial
  exact ⟨k1, k2, r', out', hrun⟩

/-- If loop 2 ran at all, RENORM under J ends with `low + range == 2^N` (R118 c). -/
theorem RenormRuns.full_of_underflow (h : RenormRuns c xfer r a k1 k2 r' a') (hp : r.Placed c) (hk : 0 < k2) :
    r'.low + r'.range = 2 ^ c.N := by
  obtain ⟨j1, j2, q, hrun, -, -, -, -, -, hfull⟩ := renorm_runs_unit c r hp
  obtain ⟨-, rfl, rfl⟩ := h.unique hrun
  exact hfull hk

/-- Where neither loop's condition holds RENORM does nothing (R117). -/
theorem renorm_of_exit (ht : topAgrees c r = false) (hu : underflows c r = false) : renorm c xfer r a = .ok (r, a) :=
  renorm_eq_ok.2 ⟨0, 0, r, a, .exit ht, .exit hu⟩

end Runs

/-! ### `range = 0` -/

theorem topAgrees_of_range_zero {low : Nat} (h : low < 2 ^ c.N) : topAgrees c ⟨low, 0⟩ = true := by
  rw [topAgrees_iff, Nat.add_zero, wrap_of_lt h]

/-- The shift of loop 1 leaves `range = 0`, so its condition stays true and every amount of fuel runs out (R119). -/
theorem topLoop_faults_of_range_zero (fuel : Nat) {low : Nat} (h : low < 2 ^ c.N) (out : List Byte) :
    loopWhile (topAgrees c) (shiftBoth c) (emitXfer c) fuel ⟨low, 0⟩ out = .error (.fault .renormNeverEnds) := by
  induction fuel generalizing low out with
  | zero => rw [loopWhile, if_pos (topAgrees_of_range_zero h)]
  | succ fuel ih =>
    have hnext : shiftBoth c ⟨low, 0⟩ = ⟨wrap c.N (low <<< c.P), 0⟩ := by simp [shiftBoth, wrap]
    rw [loopWhile, if_pos (topAgrees_of_range_zero h), hnext]
    exact ih (wrap_lt _ _) _

end Sys2Proof.Machine

open Sys2Proof Sys2Proof.Machine

/-- Settles O26: NARROW leaves the exact interval of the symbol, and that interval ends no later than the interval of
any later symbol begins. -/
theorem narrowStaysInside : Obligations.NarrowStaysInside := by
  refine fun c t r hw hs => ⟨fun i hi => ?_, fun i j hij hj => placedAt_disjoint hw hij hj r⟩
  obtain ⟨hexact, hplaced⟩ := narrow_eq hw hi hs
  exact ⟨hexact, hplaced, Nat.le_add_right _ _, placedAt_inside hw hi r⟩

/-- Settles O27: the part of `low` below its top chunk and `range` stay together below TOP, so the shift discards the top
chunk of `low` and nothing else. -/
theorem topCheckIteration : Obligations.TopCheckIteration := by
  intro c r hp ht
  obtain ⟨hsum, hbelow⟩ := hp.of_topAgrees ht
  refine ⟨hsum, by omega, hp.top_chunks_eq ht, ?_, hp.shiftBoth ht⟩
  rw [hp.shiftBoth_eq ht, Nat.mod_eq_sub_div_mul]

/-- Settles O28: the clamp is the negation of `low` mod BOTTOM. -/
theorem clampIsTheDistance : Obligations.ClampIsTheDistance :=
  fun c low _ => ⟨neg_and_bottom c low, bottom_dvd_add_clamp c low⟩

/-- Settles O29: the clamp is the distance from `low` up to a multiple of TOP inside the interval, and what is left of
the interval ends, shifted, at 2^N. -/
theorem underflowIteration : Obligations.UnderflowIteration := by
  intro c r hp ht hu
  obtain ⟨hpos, hle, -⟩ := hp.clampShift_eq ht hu
  obtain ⟨hp', hfull⟩ := hp.clampShift ht hu
  have ⟨_, _, htop⟩ := hp'
  rw [← hp.clamp_eq ht hu] at hpos hle
  exact ⟨hpos, hle, clampShift_range c r, hfull, htop hfull, hp', hp'.topAgrees_false_of_full hfull⟩

/-- Settles O30: from any registers a run of the loops that ends makes fewer iterations than the fuel allows. -/
theorem renormIsItsWhileLoops : Obligations.RenormIsItsWhileLoops :=
  fun _ _ _ _ _ _ _ => renorm_eq_ok

/-- Settles O31: under J the loops have a run with EMIT, and no run that ends is longer than the bounds. -/
theorem renormTerminates : Obligations.RenormTerminates := by
  refine ⟨fun c r out hp => ?_, fun _ _ _ _ _ _ _ _ _ h => h.bounds⟩
  obtain ⟨k1, k2, r', out', h⟩ := hp.renorm_emit_runs out
  exact ⟨k1, k2, r', out', h, renorm_eq_ok.2 ⟨k1, k2, h⟩⟩

/-- Settles O32: loop 1 runs out of any fuel, and a run that ends would be answered with its own length as fuel. -/
theorem rangeZeroNeverEnds : Obligations.RangeZeroNeverEnds := by
  intro c low out hlow
  refine ⟨?_, fun ⟨k, r', out', hrun⟩ => ?_⟩
  · rw [renorm, topLoop_faults_of_range_zero _ hlow]
    rfl
  · have hend := loopWhile_eq_ok.2 ⟨k, le_rfl, hrun⟩
    rw [topLoop_faults_of_range_zero k hlow] at hend
    cases hend

/-- Settles O33: RENORM ends in R34 with both conditions false, so that a second one makes no iteration. -/
theorem renormReachesAFixedPoint : Obligations.RenormReachesAFixedPoint := by
  intro α c xfer r r' a a' k1 k2 hp h
  obtain ⟨hsettled, ht⟩ := renorm_settled hp (renorm_eq_ok.2 ⟨k1, k2, h⟩)
  have ⟨_, hbot, _⟩ := hsettled
  have hu : underflows c r' = false := decide_eq_false hbot.not_gt
  exact ⟨Nat.le_of_not_lt (of_decide_eq_false ht), hbot, hsettled, renorm_of_exit ht hu, h.full_of_underflow hp⟩

/-- Settles O34: each loop moves CB bytes an iteration with either transfer, and the iterations depend on the registers
alone. -/
theorem oneTransferPerIteration : Obligations.OneTransferPerIteration := by
  intro c r r1 r2 out out' inp w w' k1 k2 j1 j2 hemit hconsume
  refine ⟨?_, ?_, hemit.unique hconsume⟩
  · obtain ⟨m, b, htop, hunder⟩ := hemit
    rw [hunder.emit_out.2, htop.emit_out.2, Nat.add_mul, Nat.add_assoc]
  · obtain ⟨m, b, htop, hunder⟩ := hconsume
    rw [hunder.consume_rpos.1, htop.consume_rpos.1, Nat.add_mul, Nat.add_assoc]
end

section
/-!
PROOFS. The encoder's commands (41_encoder.md): what ENC_START, ENCODE and ENC_FINISH answer, and that they look at ENC
and the configuration alone (O11, O12, O14, O15, O16, O36, O43).
-/

namespace Sys2Proof.Machine

variable {c : Config} {s : State} {r r' : RangeState} {out out' : List Byte} {k1 k2 weight : Nat}

/-! ### ENCODE by its RENORM -/

/-- A run of RENORM with EMIT appends CB bytes an iteration and takes nothing back (R120, R133). -/
theorem RenormRuns.emit_out (h : RenormRuns c (emitXfer c) r out k1 k2 r' out') :
    out <+: out' ∧ out'.length = out.length + (k1 + k2) * c.cb := by
  obtain ⟨m, b, htop, hunder⟩ := h
  obtain ⟨hpre1, hlen1⟩ := htop.emit_out
  obtain ⟨hpre2, hlen2⟩ := hunder.emit_out
  exact ⟨hpre1.trans hpre2, by rw [hlen2, hlen1, Nat.add_mul, Nat.add_assoc]⟩

/-- Under its guards and R34 ENCODE writes what RENORM makes of the exact interval of the symbol (R132). -/
theorem execEncode_of_renorm {tab : Table} {index : Nat} (hg : EncodeGuards tab index s)
    (hs : s.enc.toRangeState.Settled s.cfg)
    (hx : renorm s.cfg (emitXfer s.cfg) (placedAt tab index s.enc.toRangeState) s.out = .ok (r', out')) :
    execEncode tab index s = .next (s.withEnc { s.enc with toRangeState := r', phase := .coding } out') := by
  have ⟨_, _, _, hi, hw⟩ := hg
  rw [← (narrow_eq hw hi hs).1] at hx
  exact execEncode_eq_next.2 ⟨hg, _, hx, rfl⟩

/-! ### The flush, from any `low` -/

/-- Every chunk of a register lies below bit N. -/
theorem chunkOf_wrap (c : Config) (v : Nat) {k : Nat} (hk : k < c.nchunk) :
    chunkOf c (wrap c.N v) k = chunkOf c v k := by
  have hle : (k + 1) * c.P ≤ c.N := by rw [c.N_eq]; exact Nat.mul_le_mul_right _ hk
  have hN : 2 ^ c.N = 2 ^ (c.N - (k + 1) * c.P) * 2 ^ ((k + 1) * c.P) := by
    rw [← pow_add, Nat.sub_add_cancel hle]
  have hsplit : 2 ^ ((k + 1) * c.P) = 2 ^ c.P * 2 ^ (k * c.P) := by rw [← pow_add, Nat.succ_mul, Nat.add_comm]
  rw [chunkOf, chunkOf, wrap, hN, Nat.mod_mul_right_div_self, hsplit, Nat.mod_mul_right_mod]

/-- EMIT sends the first chunk of `low` (R133). -/
theorem emit_eq_chunkOf (c : Config) (low : Nat) (out : List Byte) :
    emit c low out = out ++ chunkBytes c (chunkOf c low 0) := by
  rw [emit_eq, chunkOf, Nat.zero_add, Nat.one_mul, Config.top]

/-- The flush sends nothing of what `low` may hold from bit N up. -/
theorem flush_wrap (c : Config) (m low : Nat) (out : List Byte) :
    (flush c m (wrap c.N low) out).2 = (flush c m low out).2 := by
  cases m with
  | zero => rfl
  | succ m =>
    have hfirst : emit c (wrap c.N low) out = emit c low out := by
      rw [emit_eq_chunkOf, emit_eq_chunkOf, chunkOf_wrap c low (by have := c.nchunk_ge; omega)]
    have hshift : wrap c.N low % c.top = low % c.top := by rw [wrap, c.two_pow_N, Nat.mod_mul_right_mod]
    rw [flush, flush, hfirst, shiftLeft_wrap, shiftLeft_wrap, hshift]

/-- The flush is the chunks of `low`, the most significant first (R134). -/
theorem flushBytes_eq (c : Config) (low : Nat) :
    flushBytes c low = (List.range c.nchunk).flatMap fun k => chunkBytes c (chunkOf c low k) := by
  rw [flushBytes, ← flush_wrap, flush_eq c _ _ le_rfl _ (wrap_lt _ _), List.nil_append]
  exact List.flatMap_congr fun k hk => by rw [chunkOf_wrap c low (List.mem_range.1 hk)]

/-! ### Big-endian streams -/

/-- In the big order chunks joined are their bytes joined (R60, R82). -/
theorem chunksValue_eq_joinBytes (ho : c.order = .big) (m : Nat) {bs : List Byte} (hl : m * c.cb ≤ bs.length) :
    chunksValue c bs m = joinBytes (bs.take (m * c.cb)) := by
  induction m with
  | zero => simp [chunksValue, joinBytes]
  | succ m ih =>
    have hmul : (m + 1) * c.cb = m * c.cb + c.cb := Nat.succ_mul _ _
    have hlen : ((bs.drop (m * c.cb)).take c.cb).length = c.cb := by
      rw [List.length_take, List.length_drop]
      omega
    have hchunk : chunkIn c bs m = joinBytes ((bs.drop (m * c.cb)).take c.cb) := by rw [chunkIn, bytesChunk, ho]
    have hbase : 2 ^ c.P = 256 ^ c.cb := by rw [c.P_eq, pow_mul]; norm_num
    rw [chunksValue, ih (by omega), hmul, List.take_add, joinBytes_concat, hlen, hchunk, hbase]

/-- In the big order the flush is `low` as one number (R134). -/
theorem joinBytes_flushBytes (ho : c.order = .big) {low : Nat} (hlow : low < 2 ^ c.N) :
    joinBytes (flushBytes c low) = low := by
  have hlen := flushBytes_length c low
  calc joinBytes (flushBytes c low)
      = joinBytes ((flushBytes c low).take (c.nchunk * c.cb)) := by rw [List.take_of_length_le hlen.le]
    _ = chunksValue c (flushBytes c low) c.nchunk := (chunksValue_eq_joinBytes ho _ hlen.ge).symm
    _ = low / 2 ^ (c.N - c.nchunk * c.P) := chunksValue_flush c _ _ le_rfl hlow
    _ = low := by rw [← c.N_eq, Nat.sub_self, pow_zero, Nat.div_one]

/-! ### The single-symbol table (R132) -/

/-- The table of one symbol of this weight. -/
def singleSymbol (weight : Nat) : Table := ⟨1, [weight], [weight]⟩

theorem singleSymbol_wf (hpos : 1 ≤ weight) (hle : weight ≤ c.bottom) : tableWF c (singleSymbol weight) = true := by
  refine tableWF_iff.2 ⟨rfl, rfl, le_rfl, fun i hi => ?_, rfl, fun i hi hi' => ?_, hle⟩
  · obtain rfl : i = 0 := Nat.lt_one_iff.1 hi
    exact hpos
  · exact absurd hi hi'.not_gt

/-- Every configuration accepts a table of one symbol (R10). -/
theorem admits_one (c : Config) : c.admits 1 = true := by
  have hok := c.ok
  simp only [Config.legal, Bool.and_eq_true] at hok
  exact hok.2

/-- The interval of the one symbol is the whole interval, less the remainder of `range`. -/
theorem placedAt_singleSymbol (weight : Nat) (r : RangeState) :
    placedAt (singleSymbol weight) 0 r = { r with range := r.range - r.range % weight } := by
  rw [← Nat.div_mul_self_eq_mod_sub_self]
  rfl

/-- `low = 0` under a `range` of N bits from BOTTOM up meets R34. -/
theorem RangeState.settled_of_low_zero (hlow : r.low = 0) (hbot : c.bottom ≤ r.range) (hlt : r.range < 2 ^ c.N) :
    r.Settled c := by
  have hpos := c.bottom_pos
  refine ⟨⟨hpos.trans_le hbot, ?_, fun hfull => ?_⟩, hbot, Nat.le_pred_of_lt hlt⟩ <;> omega

/-- With `low = 0` and `range` of N bits and at least TOP, RENORM does nothing (R115, R116). -/
theorem renorm_of_low_zero {α : Type} {xfer : RangeState → α → Except Stop α} {a : α} (hlow : r.low = 0)
    (htop : c.top ≤ r.range) (hlt : r.range < 2 ^ c.N) : renorm c xfer r a = .ok (r, a) := by
  have hbot := c.two_bottom_le_top
  refine renorm_of_exit (decide_eq_false ?_) (decide_eq_false (by omega))
  rw [hlow, Nat.zero_add, wrap_of_lt hlt, Nat.zero_xor]
  exact htop.not_gt

end Sys2Proof.Machine

open Sys2Proof Sys2Proof.Machine

/-- Settles O11: ENC_START has the guards mark and phase, and writes the phase. -/
theorem encStartPrimes : Obligations.EncStartPrimes := by
  refine fun s hmark => ⟨fun hphase => execEncStart_eq_next.2 ⟨hmark, mayStart_iff.2 hphase, rfl⟩, fun hphase => ?_⟩
  exact exec_badPhase hmark (afterStart_eq_none.2 (Bool.eq_false_iff.2 (mt mayStart_iff.1 hphase)))

/-- Settles O12: NARROW leaves the exact interval in J, from which RENORM has a run with EMIT, and what that run does is
what ENCODE does. -/
theorem encodeCompletes : Obligations.EncodeCompletes := by
  intro s t index hmark hphase hadm hi hw hs
  have hplaced := (narrow_eq hw hi hs).2
  obtain ⟨k1, k2, r, out', hrun⟩ := hplaced.renorm_emit_runs s.out
  have hrenorm := renorm_eq_ok.2 ⟨k1, k2, hrun⟩
  obtain ⟨hk1, hk2⟩ := hrun.bounds
  obtain ⟨hpre, hlen⟩ := hrun.emit_out
  refine ⟨k1, k2, r, out', ?_, hrun, hk1, hk2, hlen, hpre, (renorm_settled hplaced hrenorm).1⟩
  exact execEncode_of_renorm ⟨hmark, mayCode_iff.2 hphase, hadm, hi, hw⟩ hs hrenorm

/-- Settles O14: the flush is the chunks of `low`, whatever stands above bit N. -/
theorem encFinishFlushesLow : Obligations.EncFinishFlushesLow := by
  refine fun s hmark => ⟨fun hphase => ?_, ?_⟩
  · refine ⟨_, exec_encFinish_flush hmark (mayCode_iff.2 hphase), flushBytes_eq _ _, ?_⟩
    rw [flushBytes_length, Config.N_div_eight]
  · rintro (hphase | hphase) <;> exact exec_badPhase hmark (congrArg afterFinish hphase)

/-- Settles O15: the flush read chunk by chunk is `low`, and in the big order reading by chunks is reading by bytes. -/
theorem encFinishBigEndian : Obligations.EncFinishBigEndian := by
  intro s t horder hlow h
  obtain ⟨hmark, hphase, -⟩ := execEncFinish_eq_next.1 h
  cases (exec_encFinish_flush hmark hphase).symm.trans h
  exact ⟨_, rfl, (flushBytes_length _ _).trans s.cfg.N_div_eight.symm, joinBytes_flushBytes horder hlow⟩

/-- Settles O16: the top P bits of an N-bit `low` are a chunk already, so the mask changes nothing. -/
theorem emitAppendsTheTopChunk : Obligations.EmitAppendsTheTopChunk := by
  refine fun c low out hlow => ⟨?_, emit_length c low out⟩
  have hchunk : low / c.top < 2 ^ c.P := Nat.div_lt_of_lt_mul (by rwa [← c.two_pow_N])
  rw [emit_eq, Nat.mod_eq_of_lt hchunk, Config.top]

/-- Settles O36: the Range State is settled and NARROW cuts the remainder of `range`; with `low = 0` and `range` still
at least TOP neither loop of RENORM begins. -/
theorem singleSymbolEmitsNothing : Obligations.SingleSymbolEmitsNothing := by
  intro s weight hmark hphase hlow hrange hpos hle htop
  rw [Nat.div_mul_self_eq_mod_sub_self] at htop
  have hcut := Nat.sub_le s.enc.range (s.enc.range % weight)
  have hbot := s.cfg.two_bottom_le_top
  have hw := singleSymbol_wf hpos hle
  have hs : s.enc.toRangeState.Settled s.cfg := RangeState.settled_of_low_zero hlow (by omega) hrange
  refine execEncode_of_renorm (tab := singleSymbol weight)
    ⟨hmark, mayCode_iff.2 hphase, admits_one _, Nat.one_pos, hw⟩ hs ?_
  rw [placedAt_singleSymbol]
  exact renorm_of_low_zero hlow htop (hcut.trans_lt hrange)

/-- Settles O43: a command of ENC factors through a function of the configuration and ENC, which answers the same on
both sides. -/
theorem encoderDependsOnlyOnItself : Obligations.EncoderDependsOnlyOnItself := by
  intro i s t hi hcfg henc
  obtain ⟨F, hF⟩ := encoder_factors hi
  rw [hF s, hF t, ← hcfg, ← henc]
  cases F s.cfg s.enc with
  | ok y => exact .inl ⟨y.1, y.2, rfl, rfl⟩
  | error e =>
    cases e with
    | refuse r => exact .inr (.inl ⟨r, rfl, rfl⟩)
    | fault f => exact .inr (.inr ⟨f, rfl, rfl⟩)
end

section
/-!
PROOFS. The decoder's commands (42_decoder.md): what CONSUME, DEC_START, DECODE and DEC_FINISH answer (O17, O18, O19,
O20, O22, O23), and the round trip of a matching pair of sessions (O51).
-/

namespace Sys2Proof.Machine

variable {c : Config} {s : State} {r r' : RangeState} {t : Table} {i k1 k2 : Nat}

/-! ### DEC_START by its priming -/

/-- Past its guards DEC_START answers what the priming gives (R151). -/
theorem execDecStart_of_created (hmark : s.dec.mark = none) (hphase : s.dec.phase = .created) :
    execDecStart s = finish (prime s.cfg s.inp s.cfg.nchunk { code := 0, rpos := 0 } >>= fun w =>
      pure (s.withDec { s.dec with toWindow := w, phase := .primed } s.results)) := by
  rw [execDecStart, hmark, hphase]
  rfl

/-- The priming of DEC_START on at least N/8 bytes (R151). -/
theorem prime_start {inp : List Byte} (h : c.N / 8 ≤ inp.length) :
    prime c inp c.nchunk { code := 0, rpos := 0 } = .ok { code := chunksValue c inp c.nchunk, rpos := c.N / 8 } := by
  rw [c.N_div_eight] at h ⊢
  have hprime := prime_eq c inp c.nchunk 0 (Nat.zero_add _).le (by rwa [Nat.zero_add])
  rwa [Nat.zero_mul, Nat.zero_add] at hprime

/-! ### RENORM with CONSUME, by the chunks its EMIT would send -/

section Consume

variable {out out' inp : List Byte} {w : Window}

/-- Where the input has a chunk for each iteration, RENORM runs with CONSUME as it does with EMIT (R120). -/
theorem RenormRuns.with_consume (h : RenormRuns c (emitXfer c) r out k1 k2 r' out')
    (hl : w.rpos + (k1 + k2) * c.cb ≤ inp.length) :
    ∃ w', RenormRuns c (consumeXfer c inp) r w k1 k2 r' w' ∧ w'.rpos = w.rpos + (k1 + k2) * c.cb := by
  obtain ⟨m, b, htop, hunder⟩ := h
  rw [Nat.add_mul] at hl ⊢
  have hl1 : w.rpos + k1 * c.cb ≤ inp.length := by omega
  obtain ⟨v, hrun1, hv⟩ := htop.forget_emit.with_consume hl1
  have hl2 : v.rpos + k2 * c.cb ≤ inp.length := by omega
  obtain ⟨w', hrun2, hw'⟩ := hunder.forget_emit.with_consume hl2
  exact ⟨w', ⟨m, v, hrun1, hrun2⟩, by omega⟩

/-- Where it has not, RENORM with CONSUME is refused, in the loop in which the input ends (R54, R157). -/
theorem RenormRuns.consume_underruns (h : RenormRuns c (emitXfer c) r out k1 k2 r' out')
    (hin : w.rpos ≤ inp.length) (hl : inp.length < w.rpos + (k1 + k2) * c.cb) :
    renorm c (consumeXfer c inp) r w = .error (.refuse .streamUnderrun) := by
  obtain ⟨hk1, hk2⟩ := h.bounds
  obtain ⟨m, b, htop, hunder⟩ := h
  rw [Nat.add_mul] at hl
  refine bind_eq_error.2 ?_
  by_cases h1 : w.rpos + k1 * c.cb ≤ inp.length
  · obtain ⟨v, hrun1, hv⟩ := htop.forget_emit.with_consume h1
    have h2 : inp.length < v.rpos + k2 * c.cb := by omega
    exact .inr ⟨(m, v), loopWhile_eq_ok.2 ⟨k1, by omega, hrun1⟩,
      loopWhile_underruns hunder.forget_emit (by omega) h2 (hv.trans_le h1)⟩
  · exact .inl (loopWhile_underruns htop.forget_emit (by omega) (by omega) hin)

end Consume

/-! ### DECODE by the index it finds -/

/-- In a settled Range State the divisor is not 0 and the target is that of the exact integers (R153, R121). -/
theorem targetOf_eq (d : Dec) (hw : tableWF c t = true) (hs : d.toRangeState.Settled c) :
    targetOf c (scale (cumAt t (t.n - 1)) d.toRangeState) d.code = .ok (targetAt c t d) := by
  have hpos := unitWidth_pos hw hs
  rw [scale, targetOf, if_neg (Nat.ne_of_gt hpos), subWrap_eq _ _ _ hs.1.low_lt, targetAt]

/-- A well-formed table has an index for every target (R172, R173). -/
theorem exists_found (hw : tableWF c t = true) (target : Nat) : ∃ i, Found t target i := by
  obtain ⟨i, -, hi, hlo, hhi⟩ := search_spec hw target
  exact ⟨i, hi, hlo, hhi.symm⟩

/-- SEARCH returns that index (R172, R173). -/
theorem search_of_found {target : Nat} (hw : tableWF c t = true) (hf : Found t target i) :
    search t.n t.countCum target = .ok i := by
  obtain ⟨j, hj, hlt, hlo, hhi⟩ := search_spec hw target
  rw [hj, found_unique hf ⟨hlt, hlo, hhi.symm⟩]

/-- Past its guards DECODE answers what RENORM with CONSUME makes of the exact interval of the index found (R153). -/
theorem execDecode_of_found (hg : DecodeGuards t s) (hs : s.dec.toRangeState.Settled s.cfg)
    (hf : Found t (targetAt s.cfg t s.dec) i) :
    execDecode t s =
      finish (renorm s.cfg (consumeXfer s.cfg s.inp) (placedAt t i s.dec.toRangeState) s.dec.toWindow >>= fun x =>
        pure (s.withDec { s.dec with toRangeState := x.1, toWindow := x.2, phase := .coding } (s.results ++ [i]))) := by
  obtain ⟨hmark, hphase, hadm, hw⟩ := hg
  have ⟨hi, _, _⟩ := hf
  obtain ⟨hcount, hcum, hn, -⟩ := tableWF_iff.1 hw
  have hplace : place s.cfg (cumLo t i) (countAt t i) (scale (cumAt t (t.n - 1)) s.dec.toRangeState) =
      placedAt t i s.dec.toRangeState := (narrow_eq hw hi hs).1
  simp only [execDecode, hmark, hphase, hadm, hw, unmarked_none, require_true, ok_bind, readTotal_eq hcum hn,
    targetOf_eq s.dec hw hs, search_of_found hw hf, readCumLo_eq hcum hi, readCount_eq hcount hi, hplace]

/-- DECODE completes on a run of its RENORM (R153). -/
theorem execDecode_of_runs {w : Window} (hg : DecodeGuards t s) (hs : s.dec.toRangeState.Settled s.cfg)
    (hf : Found t (targetAt s.cfg t s.dec) i)
    (h : RenormRuns s.cfg (consumeXfer s.cfg s.inp) (placedAt t i s.dec.toRangeState) s.dec.toWindow k1 k2 r w) :
    execDecode t s = .next
      (s.withDec { s.dec with toRangeState := r, toWindow := w, phase := .coding } (s.results ++ [i])) := by
  rw [execDecode_of_found hg hs hf, renorm_eq_ok.2 ⟨k1, k2, h⟩]
  rfl

/-- From the same registers RENORM leaves the same registers, whatever is transferred (R120). -/
theorem renorm_registers_unique {α β : Type} {xfer : RangeState → α → Except Stop α}
    {xfer' : RangeState → β → Except Stop β} {a : α} {b : β} {x : RangeState × α} {y : RangeState × β}
    (hx : renorm c xfer r a = .ok x) (hy : renorm c xfer' r b = .ok y) : x.1 = y.1 := by
  obtain ⟨k1, k2, hrun⟩ := renorm_eq_ok.1 hx
  obtain ⟨j1, j2, hrun'⟩ := renorm_eq_ok.1 hy
  exact (hrun.unique hrun').2.2

/-! ### The end of a matching pair of sessions -/

/-- A window at the head of a last register's worth of chunks has consumed the whole input (R32, R134). -/
theorem Window.Shows.rpos_eq_length {w : Window} {inp tail : List Byte} (h : w.Shows c inp tail)
    (htail : tail.length = c.nchunk * c.cb) : w.rpos = inp.length := by
  obtain ⟨pre, rfl, -, hrpos⟩ := h
  rw [hrpos, List.length_append, htail]

theorem exec_decFinish (hmark : s.dec.mark = none) (hphase : s.dec.phase.mayCode = true) :
    exec .decFinish s = .next (s.withDec { s.dec with phase := .finalized } s.results) :=
  execDecFinish_eq_next.2 ⟨hmark, hphase, rfl⟩

theorem matchingSessions_eq (xs : List (Table × Nat)) (rest : List HostMove) :
    matchingSessions xs ++ rest =
      encSession xs ++ .link :: presents .decStart :: (decodeMoves xs ++ presents .decFinish :: rest) := by
  simp [matchingSessions, decSession_eq]

theorem matchingSessions_length (xs : List (Table × Nat)) :
    (matchingSessions xs).length + 1 = (encSession xs).length + 3 + xs.length + 1 := by
  have hdec : (decSession xs).length = xs.length + 2 := by simp [decSession]
  rw [matchingSessions, List.length_append, List.length_cons, hdec]
  omega

end Sys2Proof.Machine

open Sys2Proof Sys2Proof.Machine

/-- Settles O51: ENC codes the symbols and flushes; DEC, standing at the head of that stream, returns their indices and is
left with the flush, which is one register's worth of chunks. -/
theorem roundTrip : Obligations.RoundTrip := by
  intro s xs rest hcodable
  obtain ⟨r, bs, hxs⟩ := codes_exists (settled_fresh s.cfg) hcodable
  obtain ⟨p, w, hp, hshows, hrun⟩ := run_decoder hxs .nil (presents .decFinish :: rest)
  rw [List.nil_append] at hshows hrun
  rw [List.append_nil] at hrun
  have hfinish := (step_presents ((State.linked s.cfg r.range (bs ++ flushBytes s.cfg r.low) []).withDec
    { toRangeState := r, toWindow := w, phase := p, mark := none } (xs.map fun x => x.2)) .decFinish rest).trans
    (exec_decFinish rfl hp)
  rw [matchingSessions_eq, matchingSessions_length, runSteps_add _ _ _ _ hrun]
  exact ⟨_, runSteps_succ hfinish 0, rfl, rfl, hshows.rpos_eq_length (flushBytes_length _ _), ⟨rfl, rfl⟩, ⟨rfl, rfl⟩,
    rfl, rfl⟩

/-- Settles O17: past the guards mark and phase DEC_START is its priming, which takes in the head of the input or
underruns. -/
theorem decStartPrimes : Obligations.DecStartPrimes := by
  refine fun s hmark => ⟨fun hphase hlen => ?_, fun hphase hlen => ?_, fun hphase => ?_⟩
  · refine (execDecStart_of_created hmark hphase).trans ?_
    rw [prime_start hlen]
    rfl
  · refine (execDecStart_of_created hmark hphase).trans ?_
    rw [Config.N_div_eight] at hlen
    rw [prime_underruns _ _ _ _ (by have := s.cfg.nchunk_ge; omega) (by rwa [Nat.zero_add])]
    rfl
  · exact exec_badPhase hmark (afterStart_eq_none.2 (Bool.eq_false_iff.2 (mt mayStart_iff.1 hphase)))

/-- Settles O18: the shifted-out chunk of `code` lies above bit N, and the new one is a P-bit value. -/
theorem consumeTakesOneChunk : Obligations.ConsumeTakesOneChunk :=
  fun c _ _ => ⟨consume_eq c, consume_underrun c⟩

/-- Settles O19: the search finds an index; its interval is in J, so RENORM has a run with EMIT within the bounds, and
the input has a chunk for each of that run's iterations. -/
theorem decodeCompletes : Obligations.DecodeCompletes := by
  intro s t hmark hphase hadm hw hs hlen
  obtain ⟨i, hf⟩ := exists_found hw (targetAt s.cfg t s.dec)
  have ⟨hi, _, _⟩ := hf
  have hplaced := (narrow_eq hw hi hs).2
  obtain ⟨k1, k2, r, out', hemit⟩ := hplaced.renorm_emit_runs []
  obtain ⟨hk1, hk2⟩ := hemit.bounds
  have hneed : (k1 + k2) * s.cfg.cb ≤ (2 * s.cfg.nchunk - 3) * s.cfg.cb := Nat.mul_le_mul_right _ (by omega)
  obtain ⟨w, hrun, hrpos⟩ := hemit.with_consume (w := s.dec.toWindow)
    ((Nat.add_le_add_left hneed _).trans hlen)
  exact ⟨i, k1, k2, r, w, execDecode_of_runs ⟨hmark, mayCode_iff.2 hphase, hadm, hw⟩ hs hf hrun, hf, hrun, hk1, hk2,
    hrpos, (renorm_settled hplaced (renorm_eq_ok.2 ⟨k1, k2, hrun⟩)).1⟩

/-- Settles O20: RENORM with CONSUME makes the iterations of its run with EMIT as long as the input lasts, and DECODE
answers what that RENORM answers. -/
theorem decodeTakesTheChunksItsRenormNeeds : Obligations.DecodeTakesTheChunksItsRenormNeeds := by
  intro s t i k1 k2 r out out' hmark hphase hadm hw hs hf hemit
  have hg : DecodeGuards t s := ⟨hmark, mayCode_iff.2 hphase, hadm, hw⟩
  refine ⟨fun hlen => ?_, fun hin hlen => ?_⟩
  · obtain ⟨w, hrun, hrpos⟩ := hemit.with_consume hlen
    exact ⟨w, execDecode_of_runs hg hs hf hrun, hrpos⟩
  · refine (execDecode_of_found hg hs hf).trans ?_
    rw [hemit.consume_underruns hin hlen]
    rfl

/-- Settles O22: a `code` in the interval of `i` makes SEARCH find `i`, and RENORM's registers do not depend on the
transfer. -/
theorem decodeReturnsTheSymbolOfTheInterval : Obligations.DecodeReturnsTheSymbolOfTheInterval := by
  intro s u t i hs hw hi hge hlt hdecode
  obtain ⟨htarget, hsearch⟩ := decode_finds hs hw hi hge hlt
  obtain ⟨-, target, j, x, htarget', hsearch', hx, rfl⟩ := execDecode_eq_next.1 hdecode
  cases htarget.symm.trans htarget'
  cases hsearch.symm.trans hsearch'
  refine ⟨rfl, fun e v hcfg hreg hencode => ?_⟩
  obtain ⟨-, y, hy, rfl⟩ := execEncode_eq_next.1 hencode
  rw [hcfg, hreg] at hy
  exact renorm_registers_unique hy hx

/-- Settles O23: DEC_FINISH has the guards mark and phase, and writes the phase. -/
theorem decFinishEndsTheSession : Obligations.DecFinishEndsTheSession := by
  refine fun s hmark => ⟨fun hphase => exec_decFinish hmark (mayCode_iff.2 hphase), ?_⟩
  rintro (hphase | hphase) <;> exact exec_badPhase hmark (congrArg afterFinish hphase)
end

section
/-!
PROOFS. SEARCH over any array of sums, well-formed or not (O37, O38).
-/

namespace Sys2Proof.Machine

/-- SEARCH ends on an index of the array, whatever its sums (R173, R174). -/
theorem search_in_range {countCum : List Nat} (hne : countCum ≠ []) (target : Nat) :
    ∃ i, search countCum.length countCum target = .ok i ∧ i < countCum.length := by
  have hpos := List.length_pos_iff.2 hne
  obtain ⟨i, hi, hle⟩ := searchLoop_total countCum target _ 0 _ (Nat.zero_le _) (Nat.sub_one_lt_of_lt hpos) le_rfl
  exact ⟨i, hi, by omega⟩

/-- Over sums that never decrease SEARCH returns the first index above the target, or the last index (R172, R173).
The loop reads `count_cum` alone, so the table that carries the array needs no weights. -/
theorem search_spec_of_mono {countCum : List Nat} (hne : countCum ≠ [])
    (hmono : ∀ i j, i ≤ j → j < countCum.length → countCum.getD i 0 ≤ countCum.getD j 0) (target : Nat) :
    ∃ i, search countCum.length countCum target = .ok i ∧ i < countCum.length ∧
      (∀ j < i, countCum.getD j 0 ≤ target) ∧ (i = countCum.length - 1 ∨ target < countCum.getD i 0) :=
  searchLoop_spec (t := ⟨countCum.length, [], countCum⟩) rfl hmono _ 0 _ (Nat.zero_le _)
    (Nat.sub_one_lt_of_lt (List.length_pos_iff.2 hne)) le_rfl (fun _ hj => absurd hj (Nat.not_lt_zero _)) (.inl rfl)

end Sys2Proof.Machine

open Sys2Proof Sys2Proof.Machine

/-- Settles O37: the last index too is above the target, so SEARCH's index is the first one that is. An index before it
is not above the target, and one after it has a sum above the target to its left. -/
theorem searchFindsTheSmallestIndex : Obligations.SearchFindsTheSmallestIndex := by
  intro countCum target hmono hne htotal
  obtain ⟨i, hsearch, hi, hbelow, hlast⟩ := search_spec_of_mono hne hmono target
  have habove : target < countCum.getD i 0 := by
    rcases hlast with rfl | habove
    · exact htotal
    · exact habove
  refine ⟨i, hsearch, hi, habove, hbelow, fun j hj hlo hhi => ?_⟩
  rcases Nat.lt_trichotomy j i with hlt | heq | hgt
  · exact absurd (hbelow j hlt) (Nat.not_le.2 hhi)
  · exact heq
  · have hprev := hlo (by omega)
    have hle := hmono i (j - 1) (by omega) (by omega)
    omega

/-- Settles O38: the loop ends inside its bounds, and where no sum is above the target only the last index is left. -/
theorem searchStaysInTheTable : Obligations.SearchStaysInTheTable := by
  intro countCum target hne
  obtain ⟨i, hsearch, hi⟩ := search_in_range hne target
  refine ⟨i, hsearch, hi, fun hmono htotal => ?_⟩
  obtain ⟨j, hsearch', -, -, hlast⟩ := search_spec_of_mono hne hmono target
  cases hsearch.symm.trans hsearch'
  refine hlast.resolve_right (Nat.not_lt.2 ?_)
  exact (hmono i _ (by omega) (by omega)).trans htotal
end

section
/-!
PROOFS. Refusals and the two units (60_exceptions.md): ENCODE and DECODE outside their guards (O13, O21), the order of
two completing commands (O45), and the mark a refusal leaves (O49, O50).
-/

namespace Sys2Proof.Machine

variable {s t a : State} {i : Instr}

/-! ### A datapath behind its guards (R183, R186) -/

/-- With no mark and in a phase the command lists, its first two guards pass. -/
theorem finish_guards_pass {mark : Option Refusal} {may : Bool} {k : Unit → Except Stop State}
    (hm : mark = none) (hp : may = true) :
    finish (do unmarked mark; let u ← require may .badPhase; k u) = finish (k ()) := by
  subst hm hp
  rfl

theorem finish_require_pass {p : Bool} {r : Refusal} {k : Unit → Except Stop State} (hp : p = true) :
    finish (require p r >>= k) = finish (k ()) := by
  subst hp
  rfl

theorem finish_require_refused {p : Bool} {r : Refusal} {k : Unit → Except Stop State} (hp : p = false) :
    finish (require p r >>= k) = .refused r := by
  subst hp
  rfl

/-- ENCODE and DECODE, unmarked, outside PRIMED and CODING (R28). -/
theorem exec_badPhase_of_afterCode (hi : transition i = afterCode) (hm : markOf (unitOf i) s = none)
    (hp : phaseOf (unitOf i) s ≠ .primed ∧ phaseOf (unitOf i) s ≠ .coding) : exec i s = .refused .badPhase :=
  exec_badPhase hm (by rw [hi, afterCode_eq_none, mayCode_eq_false_iff]; exact hp)

/-! ### One command on two states -/

/-- What a completing command of ENC does from `s` it does from any state that agrees on the configuration and ENC
(R137). -/
theorem exec_enc_of_agree (hi : unitOf i = .enc) (hcfg : s.cfg = t.cfg) (henc : s.enc = t.enc)
    (h : exec i s = .next a) :
    ∃ e bs, a = s.withEnc e (s.out ++ bs) ∧ exec i t = .next (t.withEnc e (t.out ++ bs)) := by
  obtain ⟨e, bs, hs, ht⟩ | ⟨r, hs, -⟩ | ⟨f, hs, -⟩ := encoderDependsOnlyOnItself i s t hi hcfg henc
  all_goals cases h.symm.trans hs
  exact ⟨e, bs, rfl, ht⟩

/-- What a completing command of DEC does from `s` it does from any state that agrees on the configuration, DEC and the
input (R193). -/
theorem exec_dec_of_agree (hi : unitOf i = .dec) (hcfg : s.cfg = t.cfg) (hdec : s.dec = t.dec) (hinp : s.inp = t.inp)
    (h : exec i s = .next a) :
    ∃ d is, a = s.withDec d (s.results ++ is) ∧ exec i t = .next (t.withDec d (t.results ++ is)) := by
  obtain ⟨d, is, hs, ht⟩ | ⟨r, hs, -⟩ | ⟨f, hs, -⟩ := decoderDependsOnlyOnItself i s t hi hcfg hdec hinp
  all_goals cases h.symm.trans hs
  exact ⟨d, is, rfl, ht⟩

/-! ### The marks -/

/-- A completing command leaves both units' marks (R184). -/
theorem exec_markOf (h : exec i s = .next t) (u : UnitName) : markOf u t = markOf u s := by
  cases hi : unitOf i with
  | enc =>
    obtain ⟨hdec, -, -, -, -, hmark, -⟩ := exec_enc_frame hi h
    cases u with
    | enc => exact hmark
    | dec => exact congrArg Dec.mark hdec
  | dec =>
    obtain ⟨henc, -, -, -, -, hmark⟩ := exec_dec_frame hi h
    cases u with
    | enc => exact congrArg Enc.mark henc
    | dec => exact hmark

/-- A refused command takes its move, and its unit gets free values and the mark (R184, log 8). -/
theorem advance_of_refused {rest : List HostMove} {r : Refusal} (hp : s.pending = presents i :: rest)
    (h : step s = .refused r) :
    advance s = markUnit (unitOf i) r ((unclaimUnit (unitOf i) s).withPending rest) := by
  have hunit : cwUnit (encode i).cw = unitOf i := (decode_eq_ok (decode_encode i)).2.1
  simp only [advance, h, afterRefusal, hp, presents, disturbUnit, decode_encode, hunit]

end Sys2Proof.Machine

open Sys2Proof Sys2Proof.Machine

/-- Settles O45: either command does from the other's end what it does from the common state, and the two write
different fields. -/
theorem unitsCommute : Obligations.UnitsCommute := by
  intro i j s a b hi hj ha hb
  obtain ⟨hdec, hinp, -, hcfg, -⟩ := exec_enc_frame hi ha
  obtain ⟨henc, -, -, hcfg', -⟩ := exec_dec_frame hj hb
  obtain ⟨e, bs, rfl, hib⟩ := exec_enc_of_agree hi hcfg'.symm henc.symm ha
  obtain ⟨d, is, rfl, hja⟩ := exec_dec_of_agree hj hcfg.symm hdec.symm hinp.symm hb
  exact ⟨_, hja, hib⟩

/-- Settles O49: the mark is the first guard of every command, and of the moves only RESET writes a mark. -/
theorem markIsSticky : Obligations.MarkIsSticky := by
  refine ⟨fun i s r => exec_marked, fun s t u r hmark h hreset hresetUnit => ?_⟩
  cases step_eq_next.1 h with
  | command _ _ hi => exact (exec_markOf hi u).trans hmark
  | reset hp => simp [hp] at hreset
  | resetEnc hp =>
    cases u with
    | enc => simp [hp] at hresetUnit
    | dec => exact hmark
  | resetDec hp =>
    cases u with
    | enc => exact hmark
    | dec => simp [hp] at hresetUnit
  | idle | link | bind => exact hmark

/-- Settles O50: freeing and marking a unit write that unit and its stream alone, and an unmarked unit takes the reason
as its mark. -/
theorem refusalMarksItsUnitOnly : Obligations.RefusalMarksItsUnitOnly := by
  intro s i rest r hp h hmark
  rw [advance_of_refused hp h]
  cases hi : unitOf i with
  | enc =>
    replace hmark : s.enc.mark = none := by rwa [hi] at hmark
    refine ⟨?_, rfl, rfl, rfl, fun _ => ⟨rfl, rfl⟩, nofun⟩
    simp [markOf, hmark]
  | dec =>
    replace hmark : s.dec.mark = none := by rwa [hi] at hmark
    refine ⟨?_, rfl, rfl, rfl, nofun, fun _ => ⟨rfl, rfl⟩⟩
    simp [markOf, hmark]

/-- Settles O13: the guards of ENCODE one by one, in the order mark, phase, length, index, table. -/
theorem encodeRefusalsInOrder : Obligations.EncodeRefusalsInOrder := by
  refine fun s t index hmark => ⟨exec_badPhase_of_afterCode (i := .encode t index) rfl hmark, fun hphase => ?_⟩
  have hcode := mayCode_iff.2 hphase
  refine ⟨fun hadm => ?_, fun hadm hi => ?_, fun hadm hi hw => ?_⟩
  · exact (finish_guards_pass hmark hcode).trans (finish_require_refused hadm)
  · exact (finish_guards_pass hmark hcode).trans <| (finish_require_pass hadm).trans <|
      finish_require_refused (decide_eq_false hi.not_gt)
  · exact (finish_guards_pass hmark hcode).trans <| (finish_require_pass hadm).trans <|
      (finish_require_pass (decide_eq_true hi)).trans <| finish_require_refused hw

/-- Settles O21: the guards of DECODE one by one, in the order mark, phase, length, table. -/
theorem decodeRefusalsInOrder : Obligations.DecodeRefusalsInOrder := by
  refine fun s t hmark => ⟨exec_badPhase_of_afterCode (i := .decode t) rfl hmark, fun hphase => ?_⟩
  have hcode := mayCode_iff.2 hphase
  refine ⟨fun hadm => ?_, fun hadm hw => ?_⟩
  · exact (finish_guards_pass hmark hcode).trans (finish_require_refused hadm)
  · exact (finish_guards_pass hmark hcode).trans <| (finish_require_pass hadm).trans <| finish_require_refused hw
end

section
/-!
PROOFS. Hazards (70_reset_and_hazards.md): no step from a state of the invariant faults (O9), and how much one ENCODE can
send (O35).
-/

namespace Sys2Proof.Machine

variable {s u : State} {t : Table} {index : Nat} {f : Fault}

/-! ### A fault lies behind the guards -/

/-- A command that faults has passed its guards mark and phase (R183). -/
theorem finish_guards_eq_fault {mark : Option Refusal} {may : Bool} {k : Unit → Except Stop State} :
    finish (do unmarked mark; let u ← require may .badPhase; k u) = .fault f ↔
      mark = none ∧ may = true ∧ finish (k ()) = .fault f := by
  cases mark <;> cases may <;> simp [finish]

theorem finish_require_eq_fault {p : Bool} {r : Refusal} {k : Unit → Except Stop State} :
    finish (require p r >>= k) = .fault f ↔ p = true ∧ finish (k ()) = .fault f := by
  cases p <;> simp [finish]

theorem EncodeGuards.of_fault (h : execEncode t index s = .fault f) : EncodeGuards t index s := by
  obtain ⟨hmark, hphase, h⟩ := finish_guards_eq_fault.1 h
  obtain ⟨hadm, h⟩ := finish_require_eq_fault.1 h
  obtain ⟨hi, h⟩ := finish_require_eq_fault.1 h
  obtain ⟨hw, -⟩ := finish_require_eq_fault.1 h
  exact ⟨hmark, hphase, hadm, of_decide_eq_true hi, hw⟩

theorem DecodeGuards.of_fault (h : execDecode t s = .fault f) : DecodeGuards t s := by
  obtain ⟨hmark, hphase, h⟩ := finish_guards_eq_fault.1 h
  obtain ⟨hadm, h⟩ := finish_require_eq_fault.1 h
  obtain ⟨hw, -⟩ := finish_require_eq_fault.1 h
  exact ⟨hmark, hphase, hadm, hw⟩

/-! ### One lemma per command -/

/-- The commands that only write the phase, and ENC_FINISH, whose flush always ends (R131, R134, R156). -/
theorem finish_guards_pure_ne_fault {mark : Option Refusal} {may : Bool} :
    finish (do unmarked mark; require may .badPhase; pure u) ≠ .fault f :=
  fun h => nomatch (finish_guards_eq_fault.1 h).2.2

/-- Behind its guards, under R34, ENCODE completes (R132). -/
theorem execEncode_ne_fault (hs : s.enc.mark = none → s.enc.toRangeState.Settled s.cfg) :
    execEncode t index s ≠ .fault f := by
  intro h
  obtain ⟨hmark, hphase, hadm, hi, hw⟩ := EncodeGuards.of_fault h
  obtain ⟨_, _, _, _, hnext, -⟩ := encodeCompletes s t index hmark (mayCode_iff.1 hphase) hadm hi hw (hs hmark)
  cases h.symm.trans hnext

/-- DEC_START takes its chunks in or underruns (R151). -/
theorem execDecStart_ne_fault : execDecStart s ≠ .fault f := by
  intro h
  obtain ⟨hmark, hphase, -⟩ := finish_guards_eq_fault.1 h
  obtain ⟨hlong, hshort, -⟩ := decStartPrimes s hmark
  rcases Nat.lt_or_ge s.inp.length (s.cfg.N / 8) with hlen | hlen
  · cases h.symm.trans (hshort (mayStart_iff.1 hphase) hlen)
  · cases h.symm.trans (hlong (mayStart_iff.1 hphase) hlen)

/-- CONSUME refuses or completes (R152, R54). -/
theorem consumeXfer_ne_fault (c : Config) (inp : List Byte) (r : RangeState) (w : Window) :
    consumeXfer c inp r w ≠ .error (.fault f) := by
  rcases Nat.lt_or_ge inp.length (w.rpos + c.cb) with hlen | hlen
  · rw [consumeXfer, consume_underrun c hlen]
    nofun
  · rw [consumeXfer, consume_eq c hlen]
    nofun

/-- Behind its guards, under R34, DECODE divides by at least 1 and its RENORM ends or underruns (R119, R123, R153). -/
theorem execDecode_ne_fault (hs : s.dec.mark = none → s.dec.toRangeState.Settled s.cfg) :
    execDecode t s ≠ .fault f := by
  intro h
  have hg := DecodeGuards.of_fault h
  have ⟨hmark, _, _, hw⟩ := hg
  obtain ⟨i, hf⟩ := exists_found hw (targetAt s.cfg t s.dec)
  have ⟨hi, _, _⟩ := hf
  have hplaced := (narrow_eq hw hi (hs hmark)).2
  rw [execDecode_of_found hg (hs hmark) hf, finish_eq_fault] at h
  rcases bind_eq_error.1 h with hrenorm | ⟨_, -, hpure⟩
  · exact renorm_no_fault hplaced (consumeXfer_ne_fault _ _) hrenorm
  · cases hpure

/-! ### Every command, every move -/

theorem exec_ne_fault (hs : s.Inv) (i : Instr) : exec i s ≠ .fault f := by
  obtain ⟨henc, hdec⟩ := hs
  cases i with
  | encStart | encFinish | decFinish => exact finish_guards_pure_ne_fault
  | encode t index => exact execEncode_ne_fault fun hmark => (henc hmark).1
  | decStart => exact execDecStart_ne_fault
  | decode t => exact execDecode_ne_fault fun hmark => (hdec hmark).1

theorem bindInput_ne_fault (bytes : List Byte) : bindInput bytes s ≠ .fault f := by
  unfold bindInput
  split <;> nofun

theorem linkStreams_ne_fault : linkStreams s ≠ .fault f := by
  unfold linkStreams
  split
  · exact bindInput_ne_fault _
  · nofun

/-- A step that faults is a command that faults: the host's other moves complete or are refused (R33, R55, R90). -/
theorem command_of_step_fault (h : step s = .fault f) :
    ∃ i rest, exec i (s.withPending rest) = .fault f := by
  cases hp : s.pending with
  | nil => cases h.symm.trans (step_eq_next.2 (.idle hp))
  | cons m rest =>
    rw [step_of_pending hp] at h
    cases m with
    | command p =>
      cases hd : decode p with
      | ok i => exact ⟨i, rest, (present_of_decode hd _).symm.trans h⟩
      | error e => simp [perform, present, hd] at h
    | reset | resetEnc | resetDec => cases h
    | link => exact absurd h linkStreams_ne_fault
    | bind bytes => exact absurd h (bindInput_ne_fault bytes)

/-! ### What one ENCODE sends -/

/-- An ENCODE appends at most `2 * NCHUNK - 3` chunks, from any registers (R119, R120). -/
theorem execEncode_out_length_le (h : execEncode t index s = .next u) :
    u.out.length ≤ s.out.length + (2 * s.cfg.nchunk - 3) * s.cfg.cb := by
  obtain ⟨-, x, hx, rfl⟩ := execEncode_eq_next.1 h
  obtain ⟨k1, k2, hrun⟩ := renorm_eq_ok.1 hx
  obtain ⟨hk1, hk2⟩ := hrun.bounds
  obtain ⟨-, hlen⟩ := hrun.emit_out
  rw [State.withEnc_out, hlen]
  exact Nat.add_le_add_left (Nat.mul_le_mul_right _ (by omega)) _

end Sys2Proof.Machine

open Sys2Proof Sys2Proof.Machine

/-- Settles O9: only a command can fault, and in a state of the invariant every command completes or is refused. -/
theorem noStepFaults : Obligations.NoStepFaults := by
  intro s hs f h
  obtain ⟨i, rest, hi⟩ := command_of_step_fault h
  exact exec_ne_fault (hs.withPending rest) i hi

/-- Settles O35: with 8 chunks of one byte, `2 * NCHUNK - 3` chunks are 13 bytes. -/
theorem defaultEncodeAppendsAtMost13Bytes : Obligations.DefaultEncodeAppendsAtMost13Bytes := by
  intro s u t index hN hP h
  have hle := execEncode_out_length_le h
  rwa [Config.nchunk, Config.cb, hN, hP] at hle
end
